-- ==== Sys2Proof/Word.lean ====
section
/-!
DEFINITION. The machine's plain bit-vector types (rules R7, R10, R13, R16, R23 of spec/).
All values are unsigned; bit 0 is the least significant (R7).
-/
namespace Sys2Proof

/-- A byte: a general register, a timer, one memory cell, the constant `NN` (R9, R13, R30). -/
abbrev Byte := BitVec 8

/-- A 16-bit value: an instruction word, `I`, `PC`, a return address (R16, R17, R18, R46). -/
abbrev Word := BitVec 16

/-- A 4-bit slice of an instruction word (R7, R12). -/
abbrev Nibble := BitVec 4

/-- The 12-bit address operand `NNN` (R10, R48). -/
abbrev Addr := BitVec 12

/-- A general register's number, 0..15; `0xF` is `VF` (R13). -/
abbrev Reg := BitVec 4

/-- A key code, 0..15 (R23). -/
abbrev Key := BitVec 4

/-- The number of `VF`, the flag register (R14). -/
abbrev regF : Reg := 0xF#4

end Sys2Proof
end

