-- ==== Sys2Proof/Config.lean ====
section
/-!
DEFINITION. What the spec fixes, what it leaves open as a parameter (rule R6, 92_eei_decisions.md), and the two free
values (R91, R122(d)).
-/
namespace Sys2Proof

/-- `MEM_SIZE`: 4096 bytes, addresses 0x000..0xFFF (R6, R30). -/
def Config.memSize : Nat := 0x1000

/-- The highest address (R30). -/
def Config.lastAddr : Nat := 0xFFF

/-- `PROG_BASE`: load address and initial `PC` (R6). -/
def Config.progBase : Nat := 0x200

/-- `PROG_MAX`: the largest loadable program, 3584 bytes (R6, R145). -/
def Config.progMax : Nat := 0xE00

/-- The font's size: 16 glyphs of 5 bytes (R27). -/
def Config.fontSize : Nat := 80

/-- `FONT_BASE`'s two readings (R27, C2). -/
inductive FontPlace where
  | belowProgram   -- 0x1B0, the default
  | topOfMemory    -- 0xFB0, the alternative
deriving DecidableEq, Repr

/-- Which register `SHR` and `SHL` read (R89). -/
inductive ShiftSrc where
  | x
  | y
deriving DecidableEq, Repr

/-- Which of the result and the flag is written last (R80). -/
inductive FlagOrder where
  | flagLast
  | resultLast
deriving DecidableEq, Repr

/-- The parameters that the spec leaves open (R6, "Parameters left OPEN" of 92_eei_decisions.md).  `none` as a depth
means unbounded (R18, R23).  DESIGN CHOICE (log entry 3): they are carried in `State` as plain data, so that a
statement about every state is a statement about every value of them. -/
structure Params where
  fontPlace        : FontPlace
  font             : List Byte
  shiftSrc         : ShiftSrc
  flagOrder        : FlagOrder
  stackDepth       : Option Nat
  keyqDepth        : Option Nat
  sknpEqConsumes   : Bool
deriving DecidableEq, Repr

/-- The address of glyph 0 (R27). -/
def FontPlace.base : FontPlace → Nat
  | .belowProgram => 0x1B0
  | .topOfMemory => 0xFB0

/-- `FONT_BASE` (R6). -/
def Params.fontBase (p : Params) : Nat := p.fontPlace.base

/-- The conventional font, row 0 of each glyph first (R27).  PRESUMED (log entry 4): the source gives no bytes. -/
def Config.defaultFont : List Byte :=
  [0xF0#8, 0x90#8, 0x90#8, 0x90#8, 0xF0#8,  0x20#8, 0x60#8, 0x20#8, 0x20#8, 0x70#8,
   0xF0#8, 0x10#8, 0xF0#8, 0x80#8, 0xF0#8,  0xF0#8, 0x10#8, 0xF0#8, 0x10#8, 0xF0#8] ++
  [0x90#8, 0x90#8, 0xF0#8, 0x10#8, 0x10#8,  0xF0#8, 0x80#8, 0xF0#8, 0x10#8, 0xF0#8,
   0xF0#8, 0x80#8, 0xF0#8, 0x90#8, 0xF0#8,  0xF0#8, 0x10#8, 0x20#8, 0x40#8, 0x40#8] ++
  [0xF0#8, 0x90#8, 0xF0#8, 0x90#8, 0xF0#8,  0xF0#8, 0x90#8, 0xF0#8, 0x10#8, 0xF0#8,
   0xF0#8, 0x90#8, 0xF0#8, 0x90#8, 0x90#8,  0xE0#8, 0x90#8, 0xE0#8, 0x90#8, 0xE0#8] ++
  [0xF0#8, 0x80#8, 0x80#8, 0x80#8, 0xF0#8,  0xE0#8, 0x90#8, 0x90#8, 0x90#8, 0xE0#8,
   0xF0#8, 0x80#8, 0xF0#8, 0x80#8, 0xF0#8,  0xF0#8, 0x80#8, 0xF0#8, 0x80#8, 0x80#8]

/-- The default value of every open parameter (R6). -/
def Params.default : Params where
  fontPlace := .belowProgram
  font := Config.defaultFont
  shiftSrc := .x
  flagOrder := .flagLast
  stackDepth := some 16
  keyqDepth := none
  sknpEqConsumes := false

/-- `draw8()`: the random byte of the `n`-th draw, a FREE VALUE under no law (R91, D17; log entry 7). -/
opaque Config.randomByte : Nat → Byte

/-- Whether item `k` of a transfer was done before a memory bounds error stopped it: a FREE VALUE (R99, R122(d); log
entry 8).  The first argument is the state's count of free values taken. -/
opaque Config.partialDone : Nat → Nat → Bool

end Sys2Proof
end

