-- ==== Sys2Proof/Syntax.lean ====
section
/-!
DEFINITION. The 34 instructions (rules R53, R54, R58), one constructor per row of spec/opcode_table.json, in the
table's order.  The operand types carry the operands' ranges (R10, R48), so no ill-formed instruction can be written.
-/
namespace Sys2Proof

/-- The decoder's output: a kind and the payload of its shape (R53, R54). -/
inductive Instr where
  | cls                                  -- CLS               00E0
  | ret                                  -- RET               00EE
  | jp (nnn : Addr)                      -- JP addr           1NNN
  | call (nnn : Addr)                    -- CALL addr         2NNN
  | seByte (x : Reg) (nn : Byte)         -- SE Vx, byte       3XNN
  | sneByte (x : Reg) (nn : Byte)        -- SNE Vx, byte      4XNN
  | seReg (x y : Reg)                    -- SE Vx, Vy         5XY_
  | ldByte (x : Reg) (nn : Byte)         -- LD Vx, byte       6XNN
  | addByte (x : Reg) (nn : Byte)        -- ADD Vx, byte      7XNN
  | ldReg (x y : Reg)                    -- LD Vx, Vy         8XY0
  | orReg (x y : Reg)                    -- OR Vx, Vy         8XY1
  | andReg (x y : Reg)                   -- AND Vx, Vy        8XY2
  | xorReg (x y : Reg)                   -- XOR Vx, Vy        8XY3
  | addReg (x y : Reg)                   -- ADD Vx, Vy        8XY4
  | sub (x y : Reg)                      -- SUB Vx, Vy        8XY5
  | shr (x y : Reg)                      -- SHR Vx (, Vy)     8XY6
  | subn (x y : Reg)                     -- SUBN Vx, Vy       8XY7
  | shl (x y : Reg)                      -- SHL Vx (, Vy)     8XYE
  | sneReg (x y : Reg)                   -- SNE Vx, Vy        9XY_
  | ldI (nnn : Addr)                     -- LD I, addr        ANNN
  | jpV0 (nnn : Addr)                    -- JP V0, addr       BNNN
  | rnd (x : Reg) (nn : Byte)            -- RND Vx, byte      CXNN
  | drw (x y : Reg) (n : Nibble)         -- DRW Vx, Vy, N     DXYN
  | skp (x : Reg)                        -- SKP Vx            EX9E
  | sknp (x : Reg)                       -- SKNP Vx           EXA1
  | ldVxDt (x : Reg)                     -- LD Vx, DT         FX07
  | ldVxK (x : Reg)                      -- LD Vx, K          FX0A
  | ldDtVx (x : Reg)                     -- LD DT, Vx         FX15
  | ldStVx (x : Reg)                     -- LD ST, Vx         FX18
  | addI (x : Reg)                       -- ADD I, Vx         FX1E
  | ldF (x : Reg)                        -- LD F, Vx          FX29
  | ldB (x : Reg)                        -- LD B, Vx          FX33
  | storeRegs (x : Reg)                  -- LD [I], Vx        FX55
  | loadRegs (x : Reg)                   -- LD Vx, [I]        FX65
deriving DecidableEq, Repr

end Sys2Proof
end

