-- ==== Sys2Proof/WellFormed.lean ====
section
/-!
DEFINITION. The checks on what comes from outside the machine: an instruction word (rule R57), a program image (R145),
the open parameters (R27).  An `Instr` needs no check: its operand types carry the ranges of R10 and R13.
-/
namespace Sys2Proof

/-- The illegal words, exhaustively, as R57 tabulates them by group (written apart from the decoder). -/
def wordIllegal (w : Word) : Bool :=
  let group := w.toNat / 0x1000
  let low12 := w.toNat % 0x1000
  let low8 := w.toNat % 0x100
  let low4 := w.toNat % 0x10
  (group == 0x0 && low12 != 0x0E0 && low12 != 0x0EE) ||
  (group == 0x8 && (low4 == 0x8 || low4 == 0x9 || low4 == 0xA || low4 == 0xB || low4 == 0xC || low4 == 0xD ||
    low4 == 0xF)) ||
  (group == 0xE && low8 != 0x9E && low8 != 0xA1) ||
  (group == 0xF && low8 != 0x07 && low8 != 0x0A && low8 != 0x15 && low8 != 0x18 && low8 != 0x1E && low8 != 0x29 &&
    low8 != 0x33 && low8 != 0x55 && low8 != 0x65)

/-- A word that is one of the 34 instructions (R57). -/
def wordLegal (w : Word) : Bool := !wordIllegal w

/-- A program image the loader accepts (R145). -/
def imageFits (image : List Byte) : Bool := decide (image.length ≤ Config.progMax)

/-- The font has its 80 bytes (R27). -/
def Params.wf (p : Params) : Bool := decide (p.font.length = Config.fontSize)

end Sys2Proof
end

