-- ==== Sys2Proof/Decode.lean ====
section
/-!
DEFINITION. The decoder (rules R49 to R52, R55, R56), the encoder (R47, R54) and the opcode map as rows of match and
mask (R54).
-/
namespace Sys2Proof

/-- Why bytes are no instruction.  Raised by the decoder; safe: the machine stops where the spec says it stops. -/
inductive DecodeError where
  | unrecognized (w : Word)     -- "unrecognized opcode", carrying the original word (R56)
  | truncated (present : Nat)   -- fewer than the two bytes of a word (R46); never met by a fetch
deriving DecidableEq, Repr

/-- `nib(w, from, to)`, the decoder's one primitive: nibbles `lo` to `hi` of a word, nibble 1 the least significant,
at their full width (R7, R8). -/
def nib (w : Word) (lo hi : Nat) : BitVec (4 * (hi - lo + 1)) := w.extractLsb' (4 * lo - 4) (4 * (hi - lo + 1))

/-- The primary key `w[15:12]` (R49). -/
def fieldK (w : Word) : Nibble := nib w 4 4

/-- `X = w[11:8]` (R10). -/
def fieldX (w : Word) : Reg := nib w 3 3

/-- `Y = w[7:4]` (R10). -/
def fieldY (w : Word) : Reg := nib w 2 2

/-- `N = w[3:0]` (R10). -/
def fieldN (w : Word) : Nibble := nib w 1 1

/-- `NN = w[7:0]` (R10). -/
def fieldNN (w : Word) : Byte := nib w 1 2

/-- `NNN = w[11:0]`, all twelve bits (R8, R10). -/
def fieldNNN (w : Word) : Addr := nib w 1 3

/-- Group 0: the key is all of `w[11:0]`, matched exactly (R50). -/
def decodeGroup0 (w : Word) : Except DecodeError Instr :=
  match (fieldNNN w).toNat with
  | 0x0E0 => .ok .cls
  | 0x0EE => .ok .ret
  | _ => .error (.unrecognized w)

/-- Group 8: the key is `w[3:0]` (R51). -/
def decodeGroup8 (w : Word) : Except DecodeError Instr :=
  match (fieldN w).toNat with
  | 0x0 => .ok (.ldReg (fieldX w) (fieldY w))
  | 0x1 => .ok (.orReg (fieldX w) (fieldY w))
  | 0x2 => .ok (.andReg (fieldX w) (fieldY w))
  | 0x3 => .ok (.xorReg (fieldX w) (fieldY w))
  | 0x4 => .ok (.addReg (fieldX w) (fieldY w))
  | 0x5 => .ok (.sub (fieldX w) (fieldY w))
  | 0x6 => .ok (.shr (fieldX w) (fieldY w))
  | 0x7 => .ok (.subn (fieldX w) (fieldY w))
  | 0xE => .ok (.shl (fieldX w) (fieldY w))
  | _ => .error (.unrecognized w)

/-- Group E: the key is the low byte (R52). -/
def decodeGroupE (w : Word) : Except DecodeError Instr :=
  match (fieldNN w).toNat with
  | 0x9E => .ok (.skp (fieldX w))
  | 0xA1 => .ok (.sknp (fieldX w))
  | _ => .error (.unrecognized w)

/-- Group F: the key is the low byte (R52). -/
def decodeGroupF (w : Word) : Except DecodeError Instr :=
  match (fieldNN w).toNat with
  | 0x07 => .ok (.ldVxDt (fieldX w))
  | 0x0A => .ok (.ldVxK (fieldX w))
  | 0x15 => .ok (.ldDtVx (fieldX w))
  | 0x18 => .ok (.ldStVx (fieldX w))
  | 0x1E => .ok (.addI (fieldX w))
  | 0x29 => .ok (.ldF (fieldX w))
  | 0x33 => .ok (.ldB (fieldX w))
  | 0x55 => .ok (.storeRegs (fieldX w))
  | 0x65 => .ok (.loadRegs (fieldX w))
  | _ => .error (.unrecognized w)

/-- The decoder (R49).  Groups 5 and 9 do not examine `w[3:0]` (R55, log entry 14). -/
def decodeWord (w : Word) : Except DecodeError Instr :=
  match (fieldK w).toNat with
  | 0x0 => decodeGroup0 w
  | 0x1 => .ok (.jp (fieldNNN w))
  | 0x2 => .ok (.call (fieldNNN w))
  | 0x3 => .ok (.seByte (fieldX w) (fieldNN w))
  | 0x4 => .ok (.sneByte (fieldX w) (fieldNN w))
  | 0x5 => .ok (.seReg (fieldX w) (fieldY w))
  | 0x6 => .ok (.ldByte (fieldX w) (fieldNN w))
  | 0x7 => .ok (.addByte (fieldX w) (fieldNN w))
  | 0x8 => decodeGroup8 w
  | 0x9 => .ok (.sneReg (fieldX w) (fieldY w))
  | 0xA => .ok (.ldI (fieldNNN w))
  | 0xB => .ok (.jpV0 (fieldNNN w))
  | 0xC => .ok (.rnd (fieldX w) (fieldNN w))
  | 0xD => .ok (.drw (fieldX w) (fieldY w) (fieldN w))
  | 0xE => decodeGroupE w
  | 0xF => decodeGroupF w
  | _ => .error (.unrecognized w)

/-- The 16-bit word of two bytes, the byte at the lower address in bits 15..8 (R32). -/
def bigEndian (hi lo : Byte) : Word := hi.setWidth 16 <<< 8 ||| lo.setWidth 16

/-- The byte of a word that stands at the lower address (R32). -/
def highByte (w : Word) : Byte := w.extractLsb' 8 8

/-- The byte of a word that stands at the higher address (R32). -/
def lowByte (w : Word) : Byte := w.extractLsb' 0 8

/-- The decoder on bytes as memory holds them: one instruction and the bytes after it (R46). -/
def decodeBytes : List Byte → Except DecodeError (Instr × List Byte)
  | hi :: lo :: rest =>
    match decodeWord (bigEndian hi lo) with
    | .ok i => .ok (i, rest)
    | .error e => .error e
  | short => .error (.truncated short.length)

/-- The word of a row of spec/opcode_table.json: its `nbits` low bits, every bit above them 0. -/
def tableWord (nbits w : Nat) : Word := BitVec.ofNat 16 (w % 2 ^ nbits)

/-- The instruction the decoder reads from `w`, numbered as spec/opcode_table.json numbers its bits. -/
def decodeTableWord (nbits w : Nat) : Option Instr :=
  match decodeBytes [highByte (tableWord nbits w), lowByte (tableWord nbits w)] with
  | .ok (i, _) => some i
  | .error _ => none

/-- Format A: key and 12-bit address (R47). -/
def formatA (k : Nibble) (nnn : Addr) : Word := k.setWidth 16 <<< 12 ||| nnn.setWidth 16

/-- Formats R and RC: key, register, low byte (R47). -/
def formatRC (k : Nibble) (x : Reg) (nn : Byte) : Word :=
  k.setWidth 16 <<< 12 ||| x.setWidth 16 <<< 8 ||| nn.setWidth 16

/-- Formats RR and RRN: key, two registers, low nibble (R47). -/
def formatRRN (k : Nibble) (x y : Reg) (n : Nibble) : Word :=
  k.setWidth 16 <<< 12 ||| x.setWidth 16 <<< 8 ||| y.setWidth 16 <<< 4 ||| n.setWidth 16

/-- The word of an instruction, by its row's pattern (R54); groups 5 and 9 with low nibble 0, as an assembler emits
them (R55). -/
def encode : Instr → Word
  | .cls => formatA 0x0#4 0x0E0#12
  | .ret => formatA 0x0#4 0x0EE#12
  | .jp nnn => formatA 0x1#4 nnn
  | .call nnn => formatA 0x2#4 nnn
  | .seByte x nn => formatRC 0x3#4 x nn
  | .sneByte x nn => formatRC 0x4#4 x nn
  | .seReg x y => formatRRN 0x5#4 x y 0x0#4
  | .ldByte x nn => formatRC 0x6#4 x nn
  | .addByte x nn => formatRC 0x7#4 x nn
  | .ldReg x y => formatRRN 0x8#4 x y 0x0#4
  | .orReg x y => formatRRN 0x8#4 x y 0x1#4
  | .andReg x y => formatRRN 0x8#4 x y 0x2#4
  | .xorReg x y => formatRRN 0x8#4 x y 0x3#4
  | .addReg x y => formatRRN 0x8#4 x y 0x4#4
  | .sub x y => formatRRN 0x8#4 x y 0x5#4
  | .shr x y => formatRRN 0x8#4 x y 0x6#4
  | .subn x y => formatRRN 0x8#4 x y 0x7#4
  | .shl x y => formatRRN 0x8#4 x y 0xE#4
  | .sneReg x y => formatRRN 0x9#4 x y 0x0#4
  | .ldI nnn => formatA 0xA#4 nnn
  | .jpV0 nnn => formatA 0xB#4 nnn
  | .rnd x nn => formatRC 0xC#4 x nn
  | .drw x y n => formatRRN 0xD#4 x y n
  | .skp x => formatRC 0xE#4 x 0x9E#8
  | .sknp x => formatRC 0xE#4 x 0xA1#8
  | .ldVxDt x => formatRC 0xF#4 x 0x07#8
  | .ldVxK x => formatRC 0xF#4 x 0x0A#8
  | .ldDtVx x => formatRC 0xF#4 x 0x15#8
  | .ldStVx x => formatRC 0xF#4 x 0x18#8
  | .addI x => formatRC 0xF#4 x 0x1E#8
  | .ldF x => formatRC 0xF#4 x 0x29#8
  | .ldB x => formatRC 0xF#4 x 0x33#8
  | .storeRegs x => formatRC 0xF#4 x 0x55#8
  | .loadRegs x => formatRC 0xF#4 x 0x65#8

/-- An instruction as the two bytes memory holds (R32). -/
def encodeBytes (i : Instr) : List Byte := [highByte (encode i), lowByte (encode i)]

/-- One row of the opcode map: a word `w` selects it when `w and mask = bits` (R54). -/
structure OpcodeRow where
  bits : Word
  mask : Word
deriving DecidableEq, Repr

/-- Whether a word selects a row (R54). -/
def OpcodeRow.selects (r : OpcodeRow) (w : Word) : Bool := w &&& r.mask == r.bits

/-- An instruction's row of the opcode map (R54). -/
def Instr.row : Instr → OpcodeRow
  | .cls => ⟨0x00E0#16, 0xFFFF#16⟩
  | .ret => ⟨0x00EE#16, 0xFFFF#16⟩
  | .jp _ => ⟨0x1000#16, 0xF000#16⟩
  | .call _ => ⟨0x2000#16, 0xF000#16⟩
  | .seByte _ _ => ⟨0x3000#16, 0xF000#16⟩
  | .sneByte _ _ => ⟨0x4000#16, 0xF000#16⟩
  | .seReg _ _ => ⟨0x5000#16, 0xF000#16⟩
  | .ldByte _ _ => ⟨0x6000#16, 0xF000#16⟩
  | .addByte _ _ => ⟨0x7000#16, 0xF000#16⟩
  | .ldReg _ _ => ⟨0x8000#16, 0xF00F#16⟩
  | .orReg _ _ => ⟨0x8001#16, 0xF00F#16⟩
  | .andReg _ _ => ⟨0x8002#16, 0xF00F#16⟩
  | .xorReg _ _ => ⟨0x8003#16, 0xF00F#16⟩
  | .addReg _ _ => ⟨0x8004#16, 0xF00F#16⟩
  | .sub _ _ => ⟨0x8005#16, 0xF00F#16⟩
  | .shr _ _ => ⟨0x8006#16, 0xF00F#16⟩
  | .subn _ _ => ⟨0x8007#16, 0xF00F#16⟩
  | .shl _ _ => ⟨0x800E#16, 0xF00F#16⟩
  | .sneReg _ _ => ⟨0x9000#16, 0xF000#16⟩
  | .ldI _ => ⟨0xA000#16, 0xF000#16⟩
  | .jpV0 _ => ⟨0xB000#16, 0xF000#16⟩
  | .rnd _ _ => ⟨0xC000#16, 0xF000#16⟩
  | .drw _ _ _ => ⟨0xD000#16, 0xF000#16⟩
  | .skp _ => ⟨0xE09E#16, 0xF0FF#16⟩
  | .sknp _ => ⟨0xE0A1#16, 0xF0FF#16⟩
  | .ldVxDt _ => ⟨0xF007#16, 0xF0FF#16⟩
  | .ldVxK _ => ⟨0xF00A#16, 0xF0FF#16⟩
  | .ldDtVx _ => ⟨0xF015#16, 0xF0FF#16⟩
  | .ldStVx _ => ⟨0xF018#16, 0xF0FF#16⟩
  | .addI _ => ⟨0xF01E#16, 0xF0FF#16⟩
  | .ldF _ => ⟨0xF029#16, 0xF0FF#16⟩
  | .ldB _ => ⟨0xF033#16, 0xF0FF#16⟩
  | .storeRegs _ => ⟨0xF055#16, 0xF0FF#16⟩
  | .loadRegs _ => ⟨0xF065#16, 0xF0FF#16⟩

end Sys2Proof
end

