-- ==== Sys2Proof/Machine/State.lean ====
section
/-!
DEFINITION. The machine's state (rule R29), the errors that stop it (R117, R118), and the state right after reset
(R29, R143, R147).
-/
namespace Sys2Proof.Machine

/-- The sub-causes of a bounds error (R118).  `addr` is the first out-of-range address. -/
inductive BoundsCause where
  /-- Instruction fetch with `pc > 0xFFE` (R37).  Safe: the spec's own fatal error. -/
  | fetch (addr : Nat)
  /-- `DRW`, `LD Vx, [I]` above 0xFFF (R36, R99).  Safe: the spec's own fatal error. -/
  | memRead (addr : Nat)
  /-- `LD B, Vx`, `LD [I], Vx` above 0xFFF (R36, R99).  Safe: the spec's own fatal error. -/
  | memWrite (addr : Nat)
  /-- `RET` with an empty stack (R66).  Safe: the spec's own fatal error. -/
  | stackUnderflow
  /-- `CALL` with `STACK_DEPTH` entries (R68).  Safe: the spec's own fatal error. -/
  | stackOverflow
deriving DecidableEq, Repr

/-- The three classes of error (R117, R118).  An instruction's meaning that raises one answers it as its fault; the
engine then takes the fatal transition of R120; and a CPU turn of a halted engine answers it as the step's fault. -/
inductive Fault where
  /-- The loader, for an image of `length > 3584` bytes (R145).  Safe: no run starts. -/
  | loadError (length : Nat)
  /-- The decoder, for a word that is no instruction (R56).  Safe: the spec's own fatal error. -/
  | decodeError (w : Word)
  /-- A computed index out of range (R36, R66, R68).  Safe: the spec's own fatal error. -/
  | boundsError (cause : BoundsCause)
deriving DecidableEq, Repr

/-- Why an instruction has no meaning here.  No arm of `exec` answers it: every instruction is modelled. -/
inductive Refusal where
  /-- Raised by no instruction: the arm of an instruction without a meaning would answer it.  Safe. -/
  | notModelled (mnemonic : String)
deriving DecidableEq, Repr

/-- Memory: the cells whose byte differs from its reset content, addresses strictly rising (R21, R30). -/
abbrev Memory := List Host.Cell

/-- The framebuffer `fb[y][x]`: 32 rows, top first, of 64 pixels, left first (R22). -/
abbrev Framebuffer := Vector (Vector Bool 64) 32

/-- `Running` or `Halted(error)` (R26). -/
inductive Engine where
  | running
  | halted (e : Fault)
deriving DecidableEq, Repr

/-- One turn of one agent (R11, R41): the atomic steps whose interleaving the machine is. -/
inductive Turn where
  | cpu                    -- the CPU (R37)
  | tickDelay              -- the delay-timer agent (R126)
  | tickSound              -- the sound-timer agent (R127)
  | keyPush (k : Key)      -- the input producer (R132)
  | sample                 -- the framebuffer reader (R133)
deriving DecidableEq, Repr

/-- What the core delivers to the outside (R131). -/
inductive Output where
  | soundStop                    -- ST reached 0 by a tick (R129)
  | frame (fb : Framebuffer)     -- a snapshot (R133)
  | error (e : Fault)            -- the error output (R136)
deriving DecidableEq, Repr

/-- Every piece of state of R29, then the model's own fields (log entries 1, 3, 7, 10). -/
structure State where
  regs      : Vector Byte 16      -- V0..VF (R13)
  i         : Word                -- index register I (R16)
  pc        : Word                -- program counter PC (R17)
  stack     : List Word           -- call stack, last element the top (R9, R18)
  dt        : Byte                -- delay timer DT (R19)
  st        : Byte                -- sound timer ST (R20)
  mem       : Memory              -- memory (R21)
  fb        : Framebuffer         -- framebuffer (R22)
  keyq      : List Key            -- pending-key queue, first element the front (R9, R23)
  waiting   : Option Reg          -- the register LD Vx, K waits to fill (R25)
  halted    : Engine              -- Running or Halted(error) (R26)
  params    : Params              -- the open parameters; no step changes them (R6)
  schedule  : List Turn           -- the coming turns; when none is listed it is the CPU's turn (R41)
  freeCount : Nat                 -- how many free values have been taken (R91, R122(d))
  outputs   : List Output         -- what has been delivered to the outside, oldest first (R131)
deriving DecidableEq, Repr

/-- Creation: "zero-filled, then font-seeded" (R143, R144); the font is what unlisted memory reads as. -/
def State.created (p : Params) : State where
  regs := Vector.replicate 16 0#8
  i := 0#16
  pc := 0#16
  stack := []
  dt := 0#8
  st := 0#8
  mem := []
  fb := Vector.replicate 32 (Vector.replicate 64 false)
  keyq := []
  waiting := none
  halted := .running
  params := p
  schedule := []
  freeCount := 0
  outputs := []

/-- The state at the first CPU step, with no program loaded: created, then run start puts 0x200 in PC (R29, R147). -/
def State.reset : State := { State.created Params.default with pc := 0x200#16 }

end Sys2Proof.Machine
end

