-- ==== Sys2Proof/Machine/Ops.lean ====
section
/-!
DEFINITION. The named operations over registers, memory, PC, stack and outputs (rule R9), the instruction fetch (R37),
and the one shared fatal transition (R120).
-/
namespace Sys2Proof.Machine

/-! ### Memory -/

/-- What an unlisted address reads as: a font byte in the font's 80 places, else 0 (R27, R31, R38, R144). -/
def Memory.initialByte (p : Params) (a : Nat) : Byte :=
  if p.fontBase ≤ a ∧ a < p.fontBase + Config.fontSize then p.font.getD (a - p.fontBase) 0#8 else 0#8

/-- The listed byte at an address. -/
def Memory.find : Memory → Nat → Option Byte
  | [], _ => none
  | (b, v) :: rest, a => if a = b then some v else Memory.find rest a

/-- One byte of memory (R30). -/
def Memory.read (p : Params) (m : Memory) (a : Nat) : Byte := (Memory.find m a).getD (Memory.initialByte p a)

/-- Memory with no entry at `a`. -/
def Memory.erase (a : Nat) : Memory → Memory
  | [] => []
  | (b, u) :: rest => if a = b then Memory.erase a rest else (b, u) :: Memory.erase a rest

/-- An entry put before the first one at a higher address. -/
def Memory.insert (a : Nat) (v : Byte) : Memory → Memory
  | [] => [(a, v)]
  | (b, u) :: rest => if a < b then (a, v) :: (b, u) :: rest else (b, u) :: Memory.insert a v rest

/-- Write one byte, keeping the canonical form: no entry where `v` is what the address reads as unlisted (R33: only the
addressed byte changes). -/
def Memory.write (p : Params) (m : Memory) (a : Nat) (v : Byte) : Memory :=
  if v = Memory.initialByte p a then Memory.erase a m else Memory.insert a v (Memory.erase a m)

/-- The canonical form from address `lo` on: addresses strictly rising and inside memory, no entry that an unlisted
address would read as. -/
def Memory.wfFrom (p : Params) : Nat → Memory → Bool
  | _, [] => true
  | lo, (a, v) :: rest =>
    decide (lo ≤ a) && decide (a ≤ Config.lastAddr) && decide (v ≠ Memory.initialByte p a) && Memory.wfFrom p (a + 1) rest

/-- The canonical form. -/
def Memory.wf (p : Params) (m : Memory) : Bool := Memory.wfFrom p 0 m

/-- The byte at an address, whatever the address. -/
def State.peek (s : State) (a : Nat) : Byte := Memory.read s.params s.mem a

/-- Write the byte at an address, whatever the address. -/
def State.poke (s : State) (a : Nat) (v : Byte) : State := { s with mem := Memory.write s.params s.mem a v }

/-- `MemRead(addr, 1)`: a bounds error above 0xFFF, never a wrap (R9, R36). -/
def State.memRead (s : State) (a : Nat) : Except Fault Byte :=
  if Config.lastAddr < a then .error (.boundsError (.memRead a)) else .ok (s.peek a)

/-- `MemWrite(addr, 1, v)` (R9, R36). -/
def State.memWrite (s : State) (a : Nat) (v : Byte) : Except Fault State :=
  if Config.lastAddr < a then .error (.boundsError (.memWrite a)) else .ok (s.poke a v)

/-- `n` bytes from `a` on, in ascending order, each checked as it is read (R98, R99). -/
def State.readBlock (s : State) : Nat → Nat → Except Fault (List Byte)
  | _, 0 => .ok []
  | a, n + 1 =>
    match s.memRead a with
    | .error e => .error e
    | .ok b =>
      match State.readBlock s (a + 1) n with
      | .error e => .error e
      | .ok bs => .ok (b :: bs)

/-- Bytes stored from `a` on, in ascending order, each checked as it is written (R98, R99). -/
def State.writeBlock (s : State) : Nat → List Byte → Except Fault State
  | _, [] => .ok s
  | a, b :: bs =>
    match s.memWrite a b with
    | .error e => .error e
    | .ok t => State.writeBlock t (a + 1) bs

/-! ### Registers, PC, stack -/

/-- `x[r]` (R9, R13). -/
def State.reg (s : State) (r : Reg) : Byte := s.regs[r.toNat]'r.isLt

/-- `x[r] <- v` (R9, R13). -/
def State.setReg (s : State) (r : Reg) (v : Byte) : State := { s with regs := s.regs.set r.toNat v r.isLt }

/-- `I <- v` (R16). -/
def State.setI (s : State) (v : Word) : State := { s with i := v }

/-- `pc <- v` (R17). -/
def State.setPc (s : State) (v : Word) : State := { s with pc := v }

/-- The fetch step's and the skip's `pc <- (pc + 2) mod 2^16` (R17, R37, R64). -/
def State.advance (s : State) : State := s.setPc (s.pc + 2#16)

/-- `push(pc)` and a jump (R68). -/
def State.push (s : State) (v : Word) : State := { s with stack := s.stack ++ [v] }

/-- Whether `len(stack) = STACK_DEPTH` (R68); never with an unbounded stack (R18). -/
def State.stackFull (s : State) : Bool :=
  match s.params.stackDepth with
  | none => false
  | some d => decide (s.stack.length = d)

/-- The framebuffer written as a whole (R22). -/
def State.setFb (s : State) (f : Framebuffer) : State := { s with fb := f }

/-- `DT <- v` (R19). -/
def State.setDt (s : State) (v : Byte) : State := { s with dt := v }

/-- `ST <- v` (R20). -/
def State.setSt (s : State) (v : Byte) : State := { s with st := v }

/-- The key queue written as a whole (R23). -/
def State.setKeyq (s : State) (q : List Key) : State := { s with keyq := q }

/-- The key-wait hold (R25). -/
def State.setWaiting (s : State) (w : Option Reg) : State := { s with waiting := w }

/-- The remaining turns of the interleaving (R41). -/
def State.setSchedule (s : State) (l : List Turn) : State := { s with schedule := l }

/-- One more free value taken (R91). -/
def State.takeFree (s : State) : State := { s with freeCount := s.freeCount + 1 }

/-- Deliver an event to the outside (R131). -/
def State.emit (s : State) (o : Output) : State := { s with outputs := s.outputs ++ [o] }

/-! ### Fetch and errors -/

/-- The instruction fetch: two bytes, big-endian, both inside memory or a bounds error (R32, R37). -/
def State.fetchWord (s : State) : Except Fault Word :=
  if Config.lastAddr < s.pc.toNat + 1 then .error (.boundsError (.fetch s.pc.toNat))
  else .ok (bigEndian (s.peek s.pc.toNat) (s.peek (s.pc.toNat + 1)))

/-- The fatal transition (R120): the engine halts with the error, which goes to the error output once (R136).  Nothing
is saved, no handler runs, PC is not redirected; there is no return from it (R123). -/
def State.halt (s : State) (e : Fault) : State := { s with halted := .halted e, outputs := s.outputs ++ [.error e] }

/-- A meaning's answer from a computation that may raise an error (R9 `raise`). -/
def answer : Except Fault State → Host.Outcome State Fault Refusal
  | .ok s => .next s
  | .error e => .fault e

/-- The number R118 gives an error's class and, for a bounds error, its sub-cause. -/
def Fault.code : Fault → Nat × Option Nat
  | .loadError _ => (1, none)
  | .decodeError _ => (2, none)
  | .boundsError (.fetch _) => (3, some 1)
  | .boundsError (.memRead _) => (3, some 2)
  | .boundsError (.memWrite _) => (3, some 3)
  | .boundsError .stackUnderflow => (3, some 4)
  | .boundsError .stackOverflow => (3, some 5)

/-- One nibble as an upper-case hexadecimal digit (R56, R60). -/
def hexDigit (n : Nibble) : Char :=
  if n.toNat < 10 then Char.ofNat (48 + n.toNat) else Char.ofNat (55 + n.toNat)

/-- A decode error's word "formatted as uppercase hexadecimal" (R56, R136); four digits (log entry 20). -/
def reportWord (w : Word) : List Char := [hexDigit (fieldK w), hexDigit (fieldX w), hexDigit (fieldY w), hexDigit (fieldN w)]

end Sys2Proof.Machine
end

