-- ==== Sys2Proof/Machine/Agents.lean ====
section
/-!
DEFINITION. The steps of the agents other than the CPU (60_exceptions.md, rules R126 to R133).
-/
namespace Sys2Proof.Machine

/-- `tick_dt` (R126): test and decrement in one step. -/
def State.tickDelay (s : State) : State := if s.dt = 0#8 then s else s.setDt (s.dt - 1#8)

/-- `tick_st` (R127): the same on `ST`, with `sound_stop` at the tick that reaches 0 (R129). -/
def State.tickSound (s : State) : State :=
  if s.st = 0#8 then s
  else if s.st = 1#8 then (s.setSt 0#8).emit .soundStop
  else s.setSt (s.st - 1#8)

/-- The output level `sound_active` (R128). -/
def State.soundActive (s : State) : Bool := decide (0 < s.st.toNat)

/-- Whether the queue has room for a push (R132). -/
def State.keyRoom (s : State) : Bool :=
  match s.params.keyqDepth with
  | none => true
  | some d => decide (s.keyq.length < d)

/-- `key_push(k)` (R132).  A push on a full bounded queue is no move of the producer: nothing changes (log entry 11). -/
def State.keyPush (s : State) (k : Key) : State := if s.keyRoom then s.setKeyq (s.keyq ++ [k]) else s

/-- `fb_sample` (R133): the whole grid as it is between two steps. -/
def State.sample (s : State) : State := s.emit (.frame s.fb)

/-- A turn that is not the CPU's (R41). -/
def State.agentTurn (s : State) : Turn → State
  | .cpu => s
  | .tickDelay => s.tickDelay
  | .tickSound => s.tickSound
  | .keyPush k => s.keyPush k
  | .sample => s.sample

end Sys2Proof.Machine
end

