-- ==== Sys2Proof/Machine/Boot.lean ====
section
/-!
DEFINITION. How a program comes to run: creation, load, run start (70_reset_and_hazards.md, rules R143 to R147).
-/
namespace Sys2Proof.Machine

/-- `load(bytes)`: a load error with nothing copied if the image is too long (R145), else copied from 0x200 on (R146). -/
def State.load (image : List Byte) (s : State) : Host.Outcome State Fault Refusal :=
  if imageFits image then answer (s.writeBlock Config.progBase image) else .fault (.loadError image.length)

/-- `run_start`: `pc <- 0x200` (R147). -/
def State.runStart (s : State) : State := s.setPc (BitVec.ofNat 16 Config.progBase)

/-- Creation, load, run start; the run starts only after a successful load (R139, R143 to R147). -/
def boot (p : Params) (image : List Byte) : Host.Outcome State Fault Refusal :=
  match (State.created p).load image with
  | .next s => .next s.runStart
  | .fault e => .fault e
  | .refused r => .refused r

end Sys2Proof.Machine
end

