-- ==== Sys2Proof/Machine/Operands.lean ====
section
/-!
DEFINITION. The operand forms (rules R10, R48, R89, R93, R98): register, constant, address, `I` plus offset, the range
`V0..VX`, the front of the key queue, the decimal digits, the glyph address.
-/
namespace Sys2Proof.Machine

/-- `zext_16(NNN)` (R48). -/
def addrOperand (nnn : Addr) : Word := nnn.setWidth 16

/-- `zext_16(x[X])` (R69, R95). -/
def State.regWord (s : State) (x : Reg) : Word := (s.reg x).setWidth 16

/-- The source of a shift: `Vx`, or `Vy` under `SHIFT_SRC = Y` (R89). -/
def State.shiftSource (s : State) (x y : Reg) : Byte :=
  match s.params.shiftSrc with
  | .x => s.reg x
  | .y => s.reg y

/-- The base of every data access, as an unbounded natural (R93). -/
def State.base (s : State) : Nat := s.i.toNat

/-- `V0..VX` in ascending order, `X` included (R98). -/
def State.regRange (s : State) (x : Reg) : List Byte := s.regs.toList.take (x.toNat + 1)

/-- Registers from number `k` on, written in ascending order (R98, R102). -/
def writeRegs : Nat → List Byte → Vector Byte 16 → Vector Byte 16
  | _, [], r => r
  | k, b :: bs, r => writeRegs (k + 1) bs (r.setIfInBounds k b)

/-- `V0..` written from a list of bytes (R102). -/
def State.setRegRange (s : State) (bs : List Byte) : State := { s with regs := writeRegs 0 bs s.regs }

/-- Hundreds, tens, ones of a byte's value (R97). -/
def decimalDigits (v : Byte) : List Byte :=
  [BitVec.ofNat 8 (v.toNat / 100), BitVec.ofNat 8 (v.toNat / 10 % 10), BitVec.ofNat 8 (v.toNat % 10)]

/-- `(FONT_BASE + 5 * digit) mod 2^16`, for every byte (R96; above 15 the formula is extended, log entry 15). -/
def glyphAddress (p : Params) (digit : Byte) : Word := BitVec.ofNat 16 (p.fontBase + 5 * digit.toNat)

/-- `zext_8` of a key code (R110, R112, R116). -/
def keyByte (k : Key) : Byte := k.setWidth 8

/-- Whether the queue is not empty and its front, at 8 bits, equals `Vx` (R110, R111, R116). -/
def State.frontKeyIs (s : State) (x : Reg) : Bool :=
  match s.keyq with
  | [] => false
  | k :: _ => keyByte k == s.reg x

end Sys2Proof.Machine
end

