-- ==== Sys2Proof/Machine/Flags.lean ====
section
/-!
DEFINITION. The arithmetic with its flag (rules R75, R79, R80, R84 to R88), computed exactly and then narrowed.
-/
namespace Sys2Proof.Machine

/-- A flag is the byte 0x00 or 0x01 (R79). -/
def flagByte (b : Bool) : Byte := if b then 1#8 else 0#8

/-- The low 8 bits of the sum (R75). -/
def sumByte (a b : Byte) : Byte := BitVec.ofNat 8 (a.toNat + b.toNat)

/-- Carry: the sum exceeds 255 (R75, R84). -/
def carry (a b : Byte) : Bool := decide (255 < a.toNat + b.toNat)

/-- `(a - b) mod 256` (R75). -/
def diffByte (a b : Byte) : Byte := BitVec.ofNat 8 (a.toNat + 256 - b.toNat)

/-- No borrow: `a >= b` (R75, R85, R87). -/
def noBorrow (a b : Byte) : Bool := decide (b.toNat ≤ a.toNat)

/-- Bit 0, which a right shift moves out (R86). -/
def lowBit (v : Byte) : Bool := v.getLsbD 0

/-- Bit 7, which a left shift moves out (R88, R90; log entry 16). -/
def highBit (v : Byte) : Bool := v.getLsbD 7

/-- The result to `x[X]` and the flag to `x[0xF]`, in the order of `FLAG_ORDER` (R80). -/
def State.setRegFlag (s : State) (x : Reg) (result : Byte) (flag : Bool) : State :=
  match s.params.flagOrder with
  | .flagLast => (s.setReg x result).setReg regF (flagByte flag)
  | .resultLast => (s.setReg regF (flagByte flag)).setReg x result

end Sys2Proof.Machine
end

