-- ==== Sys2Proof/Machine/Control.lean ====
section
/-!
DEFINITION. Control transfer (40_control.md): JP, CALL, RET, JP V0, SE, SNE.  In every meaning `pc` is already the
address of the following instruction (rule R63).
-/
namespace Sys2Proof.Machine

/-- A skip: two more on PC if the condition holds (R64). -/
def State.skipIf (s : State) (c : Bool) : State := if c then s.advance else s

/-- RET: pop into PC; an empty stack is a bounds error (R66). -/
def execRet (s : State) : Host.Outcome State Fault Refusal :=
  match s.stack.getLast? with
  | none => .fault (.boundsError .stackUnderflow)
  | some v => .next { s with pc := v, stack := s.stack.dropLast }

/-- JP addr (R65). -/
def execJp (nnn : Addr) (s : State) : Host.Outcome State Fault Refusal := .next (s.setPc (addrOperand nnn))

/-- CALL addr: push PC, jump; a full stack is a bounds error (R68). -/
def execCall (nnn : Addr) (s : State) : Host.Outcome State Fault Refusal :=
  if s.stackFull then .fault (.boundsError .stackOverflow) else .next ((s.push s.pc).setPc (addrOperand nnn))

/-- JP V0, addr: the 16-bit sum, always with `V0` (R69). -/
def execJpV0 (nnn : Addr) (s : State) : Host.Outcome State Fault Refusal :=
  .next (s.setPc (addrOperand nnn + s.regWord 0x0#4))

/-- SE Vx, byte (R70). -/
def execSeByte (x : Reg) (nn : Byte) (s : State) : Host.Outcome State Fault Refusal := .next (s.skipIf (s.reg x == nn))

/-- SNE Vx, byte (R71). -/
def execSneByte (x : Reg) (nn : Byte) (s : State) : Host.Outcome State Fault Refusal := .next (s.skipIf (s.reg x != nn))

/-- SE Vx, Vy (R72). -/
def execSeReg (x y : Reg) (s : State) : Host.Outcome State Fault Refusal := .next (s.skipIf (s.reg x == s.reg y))

/-- SNE Vx, Vy (R73). -/
def execSneReg (x y : Reg) (s : State) : Host.Outcome State Fault Refusal := .next (s.skipIf (s.reg x != s.reg y))

end Sys2Proof.Machine
end

