-- ==== Sys2Proof/Machine/Display.lean ====
section
/-!
DEFINITION. The display instructions (43_display.md): CLS and DRW, each one atomic transition (rule R107).
-/
namespace Sys2Proof.Machine

/-- All 2048 pixels 0 (R104). -/
def Framebuffer.clear : Framebuffer := Vector.replicate 32 (Vector.replicate 64 false)

/-- The pixel in column `x`, row `y`, both wrapped (R106, R108(a)). -/
def Framebuffer.pixel (f : Framebuffer) (x y : Nat) : Bool := (f[y % 32]'(by omega))[x % 64]'(by omega)

/-- That pixel XOR 1 (R106). -/
def Framebuffer.toggle (f : Framebuffer) (x y : Nat) : Framebuffer :=
  f.set (y % 32) ((f[y % 32]'(by omega)).set (x % 64) (!Framebuffer.pixel f x y) (by omega)) (by omega)

/-- One set sprite bit: a collision if the pixel was set, and the pixel toggled (R106). -/
def plot (x y : Nat) (d : Framebuffer × Bool) : Framebuffer × Bool :=
  (Framebuffer.toggle d.1 x y, d.2 || Framebuffer.pixel d.1 x y)

/-- One sprite row from column `c` on, `n` columns: bit 7 is the leftmost (R105, R106). -/
def drawRow (b : Byte) (x0 y : Nat) : Nat → Nat → Framebuffer × Bool → Framebuffer × Bool
  | _, 0, d => d
  | c, n + 1, d => drawRow b x0 y (c + 1) n (if b.getMsbD c then plot (x0 + c) y d else d)

/-- The sprite's rows downward, each of 8 columns (R105, R106). -/
def drawRows : List Byte → Nat → Nat → Framebuffer × Bool → Framebuffer × Bool
  | [], _, _, d => d
  | b :: bs, x0, y, d => drawRows bs x0 (y + 1) (drawRow b x0 y 0 8 d)

/-- CLS (R104). -/
def execCls (s : State) : Host.Outcome State Fault Refusal := .next (s.setFb Framebuffer.clear)

/-- DRW Vx, Vy, nibble: both coordinates are read before `VF` is written; `VF` is the collision (R106, R108). -/
def execDrw (x y : Reg) (n : Nibble) (s : State) : Host.Outcome State Fault Refusal :=
  match s.readBlock s.base n.toNat with
  | .error e => .fault e
  | .ok rows =>
    .next ((s.setFb (drawRows rows (s.reg x).toNat (s.reg y).toNat (s.fb, false)).1).setReg regF
      (flagByte (drawRows rows (s.reg x).toNat (s.reg y).toNat (s.fb, false)).2))

end Sys2Proof.Machine
end

