-- ==== Sys2Proof/Machine/IndexMemory.lean ====
section
/-!
DEFINITION. The index register and the memory instructions (42_index_memory.md).  No access changes `I` (rule R98).
-/
namespace Sys2Proof.Machine

/-- LD I, addr (R94). -/
def execLdI (nnn : Addr) (s : State) : Host.Outcome State Fault Refusal := .next (s.setI (addrOperand nnn))

/-- ADD I, Vx: modulo 2^16, no flag (R95). -/
def execAddI (x : Reg) (s : State) : Host.Outcome State Fault Refusal := .next (s.setI (s.i + s.regWord x))

/-- LD F, Vx: the glyph's address (R96). -/
def execLdF (x : Reg) (s : State) : Host.Outcome State Fault Refusal :=
  .next (s.setI (glyphAddress s.params (s.reg x)))

/-- LD B, Vx: the three decimal digits at `I`, `I+1`, `I+2` (R97). -/
def execLdB (x : Reg) (s : State) : Host.Outcome State Fault Refusal :=
  answer (s.writeBlock s.base (decimalDigits (s.reg x)))

/-- LD [I], Vx: `V0..VX` to memory from `I` on (R98, R101). -/
def execStoreRegs (x : Reg) (s : State) : Host.Outcome State Fault Refusal :=
  answer (s.writeBlock s.base (s.regRange x))

/-- LD Vx, [I]: `V0..VX` from memory from `I` on (R98, R102). -/
def execLoadRegs (x : Reg) (s : State) : Host.Outcome State Fault Refusal :=
  match s.readBlock s.base (x.toNat + 1) with
  | .error e => .fault e
  | .ok bs => .next (s.setRegRange bs)

end Sys2Proof.Machine
end

