-- ==== Sys2Proof/Machine/TimersKeys.lean ====
section
/-!
DEFINITION. The key and timer instructions (44_timers_keys.md).
-/
namespace Sys2Proof.Machine

/-- SKP Vx: if the front key equals `Vx`, remove it and skip (R110). -/
def execSkp (x : Reg) (s : State) : Host.Outcome State Fault Refusal :=
  .next (if s.frontKeyIs x then (s.setKeyq s.keyq.tail).advance else s)

/-- SKNP Vx: if the queue is empty or its front differs from `Vx`, skip; else the front stays, or goes under
`SKNP_EQ_CONSUMES` (R111). -/
def execSknp (x : Reg) (s : State) : Host.Outcome State Fault Refusal :=
  .next (if s.frontKeyIs x then (if s.params.sknpEqConsumes then s.setKeyq s.keyq.tail else s) else s.advance)

/-- The completion of a key wait: the front key to `Vx` (R112). -/
def State.takeKey (s : State) (x : Reg) (k : Key) (rest : List Key) : State :=
  ((s.setReg x (keyByte k)).setKeyq rest).setWaiting none

/-- A CPU turn while held in `LD Vx, K`: nothing while the queue is empty, else the completion (R112, R142). -/
def State.keyWaitTurn (s : State) (x : Reg) : State :=
  match s.keyq with
  | [] => s
  | k :: rest => s.takeKey x k rest

/-- LD Vx, K: takes the front at once, or holds the CPU until there is one (R25, R112). -/
def execLdVxK (x : Reg) (s : State) : Host.Outcome State Fault Refusal :=
  .next ((s.setWaiting (some x)).keyWaitTurn x)

/-- LD Vx, DT (R113). -/
def execLdVxDt (x : Reg) (s : State) : Host.Outcome State Fault Refusal := .next (s.setReg x s.dt)

/-- LD DT, Vx (R114). -/
def execLdDtVx (x : Reg) (s : State) : Host.Outcome State Fault Refusal := .next (s.setDt (s.reg x))

/-- LD ST, Vx (R115). -/
def execLdStVx (x : Reg) (s : State) : Host.Outcome State Fault Refusal := .next (s.setSt (s.reg x))

end Sys2Proof.Machine
end

