-- ==== Sys2Proof/Machine/Fatal.lean ====
section
/-!
DEFINITION. What an instruction that raised an error leaves behind (rules R99, R122): for a memory bounds error, the
items handled before the faulting address may or may not have been transferred, each by a free value (log entry 8).
-/
namespace Sys2Proof.Machine

/-- The bytes that a block read of `n` bytes from `a` handles before its first address above 0xFFF (R99). -/
def State.readableBytes (s : State) : Nat → Nat → List Byte
  | _, 0 => []
  | a, n + 1 => if Config.lastAddr < a then [] else s.peek a :: State.readableBytes s (a + 1) n

/-- Item `k`, `k + 1`, … of a block store, each stored or not (R122(d)). -/
def Memory.storeSome (done : Nat → Bool) (p : Params) : Nat → Nat → List Byte → Memory → Memory
  | _, _, [], m => m
  | k, a, b :: bs, m =>
    Memory.storeSome done p (k + 1) (a + 1) bs
      (if done k && decide (a ≤ Config.lastAddr) then Memory.write p m a b else m)

/-- Registers `k`, `k + 1`, …, each loaded or not (R122(d)). -/
def loadSome (done : Nat → Bool) : Nat → List Byte → Vector Byte 16 → Vector Byte 16
  | _, [], r => r
  | k, b :: bs, r => loadSome done (k + 1) bs (if done k then r.setIfInBounds k b else r)

/-- Column `c` on of a sprite row, `n` columns, each set pixel drawn or not; pixel `c` of row `r` is item `8r + c`
(R122(d)). -/
def drawSomeRow (done : Nat → Bool) (b : Byte) (x0 y item : Nat) : Nat → Nat → Framebuffer → Framebuffer
  | _, 0, f => f
  | c, n + 1, f =>
    drawSomeRow done b x0 y item (c + 1) n
      (if b.getMsbD c && done (item + c) then Framebuffer.toggle f (x0 + c) y else f)

/-- The rows handled before the fault, each pixel drawn or not (R122(d)). -/
def drawSomeRows (done : Nat → Bool) : Nat → List Byte → Nat → Nat → Framebuffer → Framebuffer
  | _, [], _, _, f => f
  | item, b :: bs, x0, y, f =>
    drawSomeRows done (item + 8) bs x0 (y + 1) (drawSomeRow done b x0 y item 0 8 f)

/-- `VF` left alone, cleared or set (R122(d)). -/
def flagSome (done : Nat → Bool) (r : Vector Byte 16) : Vector Byte 16 :=
  if done 256 then r.set regF.toNat (flagByte (done 257)) regF.isLt else r

/-- A faulting DRW (R122(d)). -/
def State.partialDraw (done : Nat → Bool) (x y : Reg) (n : Nibble) (s : State) : State :=
  { s with
    regs := flagSome done s.regs
    fb := drawSomeRows done 0 (s.readableBytes s.base n.toNat) (s.reg x).toNat (s.reg y).toNat s.fb }

/-- A faulting LD Vx, [I] (R122(d)). -/
def State.partialLoad (done : Nat → Bool) (x : Reg) (s : State) : State :=
  { s with regs := loadSome done 0 (s.readableBytes s.base (x.toNat + 1)) s.regs }

/-- A faulting LD B, Vx or LD [I], Vx (R122(d)). -/
def State.partialStore (done : Nat → Bool) (bs : List Byte) (s : State) : State :=
  { s with mem := Memory.storeSome done s.params 0 s.base bs s.mem }

/-- What is left behind by an instruction that raised an error (R122): nothing for RET and CALL, and a free part of the
transfer for the four memory instructions.  The other 28 raise nothing (R119). -/
def State.leftBehind (s : State) : Instr → State
  | .drw x y n => (s.partialDraw (Config.partialDone s.freeCount) x y n).takeFree
  | .ldB x => (s.partialStore (Config.partialDone s.freeCount) (decimalDigits (s.reg x))).takeFree
  | .storeRegs x => (s.partialStore (Config.partialDone s.freeCount) (s.regRange x)).takeFree
  | .loadRegs x => (s.partialLoad (Config.partialDone s.freeCount) x).takeFree
  | .cls | .ret | .jp _ | .call _ | .seByte _ _ | .sneByte _ _ | .seReg _ _ | .ldByte _ _ | .addByte _ _
  | .ldReg _ _ | .orReg _ _ | .andReg _ _ | .xorReg _ _ | .addReg _ _ | .sub _ _ | .shr _ _ | .subn _ _
  | .shl _ _ | .sneReg _ _ | .ldI _ | .jpV0 _ | .rnd _ _ | .skp _ | .sknp _ | .ldVxDt _ | .ldVxK _ | .ldDtVx _
  | .ldStVx _ | .addI _ | .ldF _ => s

/-- The engine's handling of a meaning's answer: a raised error takes the fatal transition (R9 `raise`, R120). -/
def State.settle (s : State) (i : Instr) : Host.Outcome State Fault Refusal → Host.Outcome State Fault Refusal
  | .next t => .next t
  | .fault e => .next ((s.leftBehind i).halt e)
  | .refused r => .refused r

end Sys2Proof.Machine
end

