-- ==== Sys2Proof/Machine/Engine.lean ====
section
/-!
DEFINITION. The engine: the CPU's step (rule R37), its turn while held or halted (R112, R120), and the interleaving of
the agents' turns (R41).
-/
namespace Sys2Proof.Machine

/-- `cpu_step` (R37): fetch, advance, decode, execute; the first error met takes the fatal transition (R120, R121).  A
fetch error leaves PC, a decode error leaves PC advanced (R122). -/
def State.cpuStep (s : State) : Host.Outcome State Fault Refusal :=
  match s.fetchWord with
  | .error e => .next (s.halt e)
  | .ok w =>
    match decodeWord w with
    | .error _ => .next (s.advance.halt (.decodeError w))
    | .ok i => s.advance.settle i (exec i s.advance)

/-- The CPU's turn: a halted engine has no further step, and the run ends there in its error (R26, R120; log entry 9); a
held CPU waits for a key (R112). -/
def State.cpuTurn (s : State) : Host.Outcome State Fault Refusal :=
  match s.halted with
  | .halted e => .fault e
  | .running =>
    match s.waiting with
    | some x => .next (s.keyWaitTurn x)
    | none => s.cpuStep

/-- One turn: the next one listed, or the CPU's when none is listed (R41; log entries 1, 2). -/
def State.turn (s : State) : Host.Outcome State Fault Refusal :=
  match s.schedule with
  | [] => s.cpuTurn
  | .cpu :: rest => (s.setSchedule rest).cpuTurn
  | t :: rest => .next ((s.setSchedule rest).agentTurn t)

/-- The same state with the CPU running, not held, next to move, and PC at a fetchable address. -/
def State.readyToFetch (s : State) : State :=
  { s with
    halted := .running
    waiting := none
    schedule := match s.schedule with
      | [] => []
      | .cpu :: rest => .cpu :: rest
      | t :: rest => .cpu :: t :: rest
    pc := if Config.lastAddr < s.pc.toNat + 1 then BitVec.ofNat 16 Config.progBase else s.pc }

/-- A word stored where the next fetch reads it (R32). -/
def State.placeWord (s : State) (w : Word) : State :=
  (s.poke s.pc.toNat (highByte w)).poke (s.pc.toNat + 1) (lowByte w)

end Sys2Proof.Machine
end

