-- ==== Sys2Proof/Machine/Step.lean ====
section
/-!
DEFINITION. One step of the machine, and the state that fetches a given word next.
-/
namespace Sys2Proof.Machine

/-- One atomic step of the interleaving of agents (rules R37, R41). -/
def step (s : State) : Host.Outcome State Fault Refusal := s.turn

/-- `s` with the word `w` of a table row where `step` fetches its next instruction; it stands for the load of a program
from outside (log entry 12). -/
def State.withFetchWord (s : State) (nbits w : Nat) : State := s.readyToFetch.placeWord (tableWord nbits w)

end Sys2Proof.Machine
end

