-- ==== Sys2Proof/Safety.lean ====
section
/-!
DEFINITION. The terms in which the statements about the machine are written: the machine's invariant, a safe step, a
program's end state (R155), when the CPU moves next, the error table of rule R119, and which words an instruction's
pattern selects (R54).
-/
namespace Sys2Proof.Machine

/-- What every reachable state satisfies: the font has 80 bytes (R27), memory is in canonical form, `PC` is at most
0x10FE and return addresses at most 0x1000 (so the wraps of R17 and R64 are unreachable), the stack and the queue are
within their depths (R18, R23), and a halted engine is not held in a key wait (R25, R26). -/
abbrev State.Inv (s : State) : Prop :=
  s.params.wf = true ∧
  Memory.wf s.params s.mem = true ∧
  s.pc.toNat ≤ 0x10FE ∧
  (∀ a ∈ s.stack, a.toNat ≤ 0x1000) ∧
  (∀ d ∈ s.params.stackDepth, s.stack.length ≤ d) ∧
  (∀ d ∈ s.params.keyqDepth, s.keyq.length ≤ d) ∧
  (s.halted = .running ∨ s.waiting = none)

/-- A step after which the engine still runs; a halted state is never a normal completion (R120). -/
def State.SafeStep (s : State) : Prop := ∃ t, step s = .next t ∧ t.halted = .running

/-- An end state: the engine runs and is not held, and PC stands at a `JP` to its own address (R155).  A halted state is
never an end state (R120), nor is a held one, whose CPU can still change state (R112, R155). -/
def State.AtEnd (s : State) : Prop :=
  s.halted = .running ∧ s.waiting = none ∧ s.pc.toNat ≤ 0xFFE ∧
    ∃ nnn : Addr, nnn.toNat = s.pc.toNat ∧
      decodeBytes [s.peek s.pc.toNat, s.peek (s.pc.toNat + 1)] = .ok (.jp nnn, [])

/-- The state after `n` steps, if the run goes on that long. -/
def State.after : Nat → State → Option State
  | 0, s => some s
  | n + 1, s =>
    match step s with
    | .next t => State.after n t
    | .fault _ => none
    | .refused _ => none

/-- The run from `s` first comes to an end state after `n` steps, and `t` is that state: the program's end state (R155). -/
def State.EndsAfter (s : State) (n : Nat) (t : State) : Prop :=
  State.after n s = some t ∧ t.AtEnd ∧ ∀ k u, k < n → State.after k s = some u → ¬ u.AtEnd

/-- The next turn is the CPU's (R41). -/
abbrev State.CpuNext (s : State) : Prop := s.schedule.head? = none ∨ s.schedule.head? = some .cpu

/-- The CPU moves next and fetches: it is its turn, it runs, and it is not held (R37). -/
abbrev State.Fetching (s : State) : Prop := s.CpuNext ∧ s.halted = .running ∧ s.waiting = none

/-- The state an instruction's handler starts from: the turn taken and PC already advanced by 2 (R17, R63). -/
def State.handler (s : State) : State := { s with pc := s.pc + 2#16, schedule := s.schedule.tail }

/-- The same state with the turn taken. -/
def State.turnTaken (s : State) : State := { s with schedule := s.schedule.tail }

/-- Every byte of memory reads as before. -/
def State.SameBytes (s t : State) : Prop := ∀ a, t.peek a = s.peek a

/-- Every register outside the list reads as before. -/
def State.SameRegsBut (s t : State) (written : List Reg) : Prop := ∀ r, r ∉ written → t.reg r = s.reg r

/-- Every word that a match and a mask select decodes to this instruction with its operands' fields (R54). -/
def Selects (bits mask : Word) (f : Word → Instr) : Prop := ∀ w, w &&& mask = bits → decodeWord w = .ok (f w)

/-- The first out-of-range address of a run of bytes from `a` that reaches above 0xFFF (R121). -/
def firstOutside (a : Nat) : Nat := max a 0x1000

/-- R119's table, with the error each of the six instructions raises. -/
def raisedBy : Instr → State → Option Fault
  | .ret, s => if s.stack.length = 0 then some (.boundsError .stackUnderflow) else none
  | .call _, s => if s.params.stackDepth = some s.stack.length then some (.boundsError .stackOverflow) else none
  | .drw _ _ n, s =>
    if 1 ≤ n.toNat ∧ 0xFFF < s.i.toNat + n.toNat - 1 then some (.boundsError (.memRead (firstOutside s.i.toNat)))
    else none
  | .ldB _, s => if 0xFFF < s.i.toNat + 2 then some (.boundsError (.memWrite (firstOutside s.i.toNat))) else none
  | .storeRegs x, s =>
    if 0xFFF < s.i.toNat + x.toNat then some (.boundsError (.memWrite (firstOutside s.i.toNat))) else none
  | .loadRegs x, s =>
    if 0xFFF < s.i.toNat + x.toNat then some (.boundsError (.memRead (firstOutside s.i.toNat))) else none
  | .cls, _ | .jp _, _ | .seByte _ _, _ | .sneByte _ _, _ | .seReg _ _, _ | .ldByte _ _, _ | .addByte _ _, _
  | .ldReg _ _, _ | .orReg _ _, _ | .andReg _ _, _ | .xorReg _ _, _ | .addReg _ _, _ | .sub _ _, _ | .shr _ _, _
  | .subn _ _, _ | .shl _ _, _ | .sneReg _ _, _ | .ldI _, _ | .jpV0 _, _ | .rnd _ _, _ | .skp _, _ | .sknp _, _
  | .ldVxDt _, _ | .ldVxK _, _ | .ldDtVx _, _ | .ldStVx _, _ | .addI _, _ | .ldF _, _ => none

/-- The six instructions that write `VF` as a flag (R15). -/
def writesFlag : Instr → Bool
  | .addReg _ _ | .sub _ _ | .shr _ _ | .subn _ _ | .shl _ _ | .drw _ _ _ => true
  | .cls | .ret | .jp _ | .call _ | .seByte _ _ | .sneByte _ _ | .seReg _ _ | .ldByte _ _ | .addByte _ _
  | .ldReg _ _ | .orReg _ _ | .andReg _ _ | .xorReg _ _ | .sneReg _ _ | .ldI _ | .jpV0 _ | .rnd _ _ | .skp _
  | .sknp _ | .ldVxDt _ | .ldVxK _ | .ldDtVx _ | .ldStVx _ | .addI _ | .ldF _ | .ldB _ | .storeRegs _
  | .loadRegs _ => false

/-- Whether an instruction names a register as an ordinary destination: its `X`, or one of `V0..VX` for the block load
(R15, R98). -/
def destination : Instr → Reg → Bool
  | .ldByte x _, r | .addByte x _, r | .ldReg x _, r | .orReg x _, r | .andReg x _, r | .xorReg x _, r
  | .addReg x _, r | .sub x _, r | .shr x _, r | .subn x _, r | .shl x _, r | .rnd x _, r | .ldVxDt x, r
  | .ldVxK x, r => r == x
  | .loadRegs x, r => decide (r.toNat ≤ x.toNat)
  | .cls, _ | .ret, _ | .jp _, _ | .call _, _ | .seByte _ _, _ | .sneByte _ _, _ | .seReg _ _, _ | .sneReg _ _, _
  | .ldI _, _ | .jpV0 _, _ | .drw _ _ _, _ | .skp _, _ | .sknp _, _ | .ldDtVx _, _ | .ldStVx _, _ | .addI _, _
  | .ldF _, _ | .ldB _, _ | .storeRegs _, _ => false

/-- The flag as the byte a statement expects (R79). -/
def flagIs (b : Prop) [Decidable b] : Byte := if b then 1#8 else 0#8

/-- What `VF` and `Vx` hold after a flag-writing instruction of group 8, under the state's `FLAG_ORDER` (R80). -/
def State.ResultAndFlag (s t : State) (x : Reg) (result flag : Byte) : Prop :=
  (x ≠ regF → t.reg x = result ∧ t.reg regF = flag) ∧
  (x = regF → t.reg regF = match s.params.flagOrder with
    | .flagLast => flag
    | .resultLast => result)

/-- Whether the set pixels of a sprite of these rows, drawn with its corner at column `x0`, row `y0`, cover the pixel
in column `px`, row `py`, wrapping in both axes (R105, R106, R108(a)). -/
def covers (rows : List Byte) (x0 y0 px py : Nat) : Prop :=
  ∃ r c : Nat, r < rows.length ∧ c < 8 ∧ (rows.getD r 0#8).getLsbD (7 - c) = true ∧
    px = (x0 + c) % 64 ∧ py = (y0 + r) % 32

end Sys2Proof.Machine
end

