-- ==== Sys2Proof/Certificates/Slice0/Obligations.lean ====
section
/-!
DEFINITION. The statements for the provers, each from the numbered rules of spec/.
-/
open Sys2Proof Sys2Proof.Machine

/-! ### Encoding and decoding -/

/-- Words of every family, written out from R54's patterns, decode to the instruction they stand for; illegal
neighbours do not (95_test_vectors.md T1). -/
def Obligations.SampleWordsDecode : Prop :=
  decodeWord 0x00E0#16 = .ok .cls ∧ decodeWord 0x00EE#16 = .ok .ret ∧ decodeWord 0x1ABC#16 = .ok (.jp 0xABC#12) ∧
  decodeWord 0x3A05#16 = .ok (.seByte 0xA#4 0x05#8) ∧ decodeWord 0x5127#16 = .ok (.seReg 0x1#4 0x2#4) ∧
  decodeWord 0x612A#16 = .ok (.ldByte 0x1#4 0x2A#8) ∧ decodeWord 0x8125#16 = .ok (.sub 0x1#4 0x2#4) ∧
  decodeWord 0xA2F0#16 = .ok (.ldI 0x2F0#12) ∧ decodeWord 0xC10F#16 = .ok (.rnd 0x1#4 0x0F#8) ∧
  decodeWord 0xD125#16 = .ok (.drw 0x1#4 0x2#4 0x5#4) ∧ decodeWord 0xE1A1#16 = .ok (.sknp 0x1#4) ∧
  decodeWord 0xF30A#16 = .ok (.ldVxK 0x3#4) ∧ decodeWord 0xF255#16 = .ok (.storeRegs 0x2#4) ∧
  decodeWord 0x01E0#16 = .error (.unrecognized 0x01E0#16) ∧ decodeWord 0x8128#16 = .error (.unrecognized 0x8128#16) ∧
  decodeWord 0xE19F#16 = .error (.unrecognized 0xE19F#16) ∧ decodeWord 0xF275#16 = .error (.unrecognized 0xF275#16)

/-- Decoding what the encoder gives is the instruction, as a word and as bytes in memory order, for every instruction
with every value of its operands. -/
def Obligations.DecodeOfEncode : Prop :=
  ∀ (i : Instr) (rest : List Byte),
    decodeWord (encode i) = .ok i ∧ decodeBytes (encodeBytes i ++ rest) = .ok (i, rest)

/-- The decoder laws (R62): decode is total and an error carries the word; every kind is the image of a word; encoding
what a legal word decodes to gives the word back, but for the ignored low nibble of groups 5 and 9, which becomes 0. -/
def Obligations.DecoderLaws : Prop :=
  (∀ w, (∃ i, decodeWord w = .ok i) ∨ decodeWord w = .error (.unrecognized w)) ∧
  (∀ i, ∃ w, decodeWord w = .ok i) ∧
  (∀ w i, decodeWord w = .ok i →
    encode i = if fieldK w = 0x5#4 ∨ fieldK w = 0x9#4 then w &&& 0xFFF0#16 else w)

/-- The words that raise a decode error are exactly those of R57's table. -/
def Obligations.IllegalWordsExactly : Prop :=
  ∀ w, decodeWord w = .error (.unrecognized w) ↔ wordIllegal w = true

/-- A word that decodes selects the row of its instruction and no other instruction's row (R54). -/
def Obligations.OpcodeMapSelectsOneRow : Prop :=
  ∀ w i, decodeWord w = .ok i →
    i.row.selects w = true ∧ ∀ j : Instr, j.row.selects w = true → j.row = i.row

/-- Nibble-range extraction (R8): the bits, at full width, the laws and the two values the source gives. -/
def Obligations.NibbleExtraction : Prop :=
  (∀ (w : Word) (lo hi : Nat), 1 ≤ lo → lo ≤ hi → hi ≤ 4 →
    (nib w lo hi).toNat = w.toNat / 2 ^ (4 * lo - 4) % 2 ^ (4 * (hi - lo + 1))) ∧
  (∀ w : Word, (nib w 1 4).toNat = w.toNat) ∧
  (∀ w : Word, (nib w 4 4).toNat * 4096 + (nib w 3 3).toNat * 256 + (nib w 2 2).toNat * 16 + (nib w 1 1).toNat =
    w.toNat) ∧
  (nib 0xABCD#16 4 4).toNat = 0xA ∧ (nib 0x0001#16 4 4).toNat = 0x0

/-! ### One step -/

/-- The fetch is big-endian at any PC, odd or even, and needs both bytes inside memory (R32, R37). -/
def Obligations.FetchIsBigEndian : Prop :=
  ∀ s : State,
    (s.pc.toNat ≤ 0xFFE → ∃ w, s.fetchWord = .ok w ∧
      w.toNat = (s.peek s.pc.toNat).toNat * 256 + (s.peek (s.pc.toNat + 1)).toNat) ∧
    (0xFFE < s.pc.toNat → s.fetchWord = .error (.boundsError (.fetch s.pc.toNat)))

/-- When the bytes at PC decode to an instruction, the step is that instruction's meaning on the handler's state (the
turn taken, PC advanced by 2); an error it raises takes the fatal transition (R37, R120). -/
def Obligations.StepRunsDecodedInstruction : Prop :=
  ∀ (s : State) (i : Instr), s.Fetching → s.pc.toNat ≤ 0xFFE →
    decodeBytes [s.peek s.pc.toNat, s.peek (s.pc.toNat + 1)] = .ok (i, []) →
    s.handler.pc = s.pc + 2#16 ∧
    (∀ t, exec i s.handler = .next t → step s = .next t) ∧
    (∀ e, exec i s.handler = .fault e → step s = .next ((s.handler.leftBehind i).halt e)) ∧
    (∀ r, exec i s.handler ≠ .refused r)

/-- A fetch above 0xFFE halts the engine with a bounds error that carries PC, and changes nothing else (R37, R122(a)). -/
def Obligations.FetchErrorHalts : Prop :=
  ∀ s : State, s.Fetching → 0xFFE < s.pc.toNat →
    step s = .next { s with
      schedule := s.schedule.tail
      halted := .halted (.boundsError (.fetch s.pc.toNat))
      outputs := s.outputs ++ [.error (.boundsError (.fetch s.pc.toNat))] }

/-- An illegal word halts the engine with a decode error that carries the word, PC advanced by 2 and nothing else changed
(R56, R57, R122(b)). -/
def Obligations.IllegalWordHalts : Prop :=
  ∀ (s : State) (w : Word), s.Fetching → s.pc.toNat ≤ 0xFFE →
    w.toNat = (s.peek s.pc.toNat).toNat * 256 + (s.peek (s.pc.toNat + 1)).toNat → wordIllegal w = true →
    step s = .next { s with
      schedule := s.schedule.tail
      pc := s.pc + 2#16
      halted := .halted (.decodeError w)
      outputs := s.outputs ++ [.error (.decodeError w)] }

/-- A stack error halts the engine with PC advanced by 2 and the stack and everything else unchanged (R66, R68,
R122(c)). -/
def Obligations.StackErrorsHalt : Prop :=
  ∀ (s : State) (i : Instr) (c : BoundsCause), s.Fetching → s.pc.toNat ≤ 0xFFE →
    decodeWord (bigEndian (s.peek s.pc.toNat) (s.peek (s.pc.toNat + 1))) = .ok i →
    (i = .ret ∧ s.stack = [] ∧ c = .stackUnderflow) ∨
      (∃ nnn, i = .call nnn ∧ s.params.stackDepth = some s.stack.length ∧ c = .stackOverflow) →
    step s = .next { s with
      schedule := s.schedule.tail
      pc := s.pc + 2#16
      halted := .halted (.boundsError c)
      outputs := s.outputs ++ [.error (.boundsError c)] }

/-- A memory bounds error halts the engine with PC advanced by 2; each byte, register or pixel that the instruction
handles before the faulting address is either untouched or transferred, and `VF` of a DRW untouched, 0 or 1; everything
else is unchanged (R99, R122(d)).  The free values of log entry 8 may be anything. -/
def Obligations.MemoryErrorsHalt : Prop :=
  ∀ (s : State) (i : Instr) (e : Fault), s.Fetching → s.pc.toNat ≤ 0xFFE →
    decodeWord (bigEndian (s.peek s.pc.toNat) (s.peek (s.pc.toNat + 1))) = .ok i →
    raisedBy i s.handler = some e → i ≠ .ret → (∀ nnn, i ≠ .call nnn) →
    ∃ t, step s = .next t ∧ t.halted = .halted e ∧ t.outputs = s.outputs ++ [.error e] ∧ t.pc = s.pc + 2#16 ∧
      t.i = s.i ∧ t.stack = s.stack ∧ t.dt = s.dt ∧ t.st = s.st ∧ t.keyq = s.keyq ∧ t.waiting = s.waiting ∧
      t.params = s.params ∧ t.schedule = s.schedule.tail ∧
      match i with
      | .ldB x => t.regs = s.regs ∧ t.fb = s.fb ∧ ∀ a, t.peek a = s.peek a ∨
          (s.i.toNat ≤ a ∧ a ≤ 0xFFF ∧ a < s.i.toNat + 3 ∧
            t.peek a = (decimalDigits (s.reg x)).getD (a - s.i.toNat) 0#8)
      | .storeRegs x => t.regs = s.regs ∧ t.fb = s.fb ∧ ∀ a, t.peek a = s.peek a ∨
          ∃ r : Reg, r.toNat ≤ x.toNat ∧ a = s.i.toNat + r.toNat ∧ a ≤ 0xFFF ∧ t.peek a = s.reg r
      | .loadRegs x => s.SameBytes t ∧ t.fb = s.fb ∧ ∀ r : Reg, t.reg r = s.reg r ∨
          (r.toNat ≤ x.toNat ∧ s.i.toNat + r.toNat ≤ 0xFFF ∧ t.reg r = s.peek (s.i.toNat + r.toNat))
      | .drw x y n => s.SameBytes t ∧ s.SameRegsBut t [regF] ∧
          (t.reg regF = s.reg regF ∨ t.reg regF = 0#8 ∨ t.reg regF = 1#8) ∧
          ∀ px py, px < 64 → py < 32 → Framebuffer.pixel t.fb px py = Framebuffer.pixel s.fb px py ∨
            ∃ r, r < n.toNat ∧ s.i.toNat + r ≤ 0xFFF ∧
              covers [s.peek (s.i.toNat + r)] (s.reg x).toNat ((s.reg y).toNat + r) px py
      | _ => False

/-- A halted engine stays halted with the same error, the CPU's own state never changes again, and at the CPU's turn
the run ends in that error (R26, R120, R123; the last is the model's form of R120's terminal condition, log entry 9). -/
def Obligations.HaltedIsTerminal : Prop :=
  ∀ (s : State) (e : Fault), s.halted = .halted e →
    (s.CpuNext → step s = .fault e) ∧
    ∀ t, step s = .next t →
      t.halted = s.halted ∧ t.regs = s.regs ∧ t.i = s.i ∧ t.pc = s.pc ∧ t.stack = s.stack ∧ t.mem = s.mem ∧
      t.fb = s.fb ∧ t.waiting = s.waiting

/-- R119's table: an instruction raises exactly the errors it lists, under exactly its conditions, with the first
out-of-range address; in every other case it completes. -/
def Obligations.ErrorsExactly : Prop :=
  ∀ (i : Instr) (s : State),
    (∀ e, exec i s = .fault e ↔ raisedBy i s = some e) ∧ (raisedBy i s = none ↔ ∃ t, exec i s = .next t)

/-! ### Invariants and writers -/

/-- Every step from a state that meets the invariant leads to one that meets it: the font has its size, memory its
canonical form, PC never wraps, the stack and the queue stay within their depths. -/
def Obligations.InvariantKept : Prop := ∀ s t : State, s.Inv → step s = .next t → t.Inv

/-- The state right after reset meets the invariant. -/
def Obligations.ResetMeetsInvariant : Prop := State.reset.Inv

/-- No step changes the open parameters (R6; they are the model's own field, log entry 3). -/
def Obligations.ParametersKept : Prop := ∀ s t : State, step s = .next t → t.params = s.params

/-- The registers an instruction does not name as a destination keep their values, `VF` but for the six flag-writing
instructions, which write 0 or 1 to it; under `FLAG_ORDER = result_last` one with `X = 0xF` leaves its result there
(R14, R15, R79, R151). -/
def Obligations.RegisterWriters : Prop :=
  ∀ (i : Instr) (s t : State), exec i s = .next t →
    (∀ r, r ≠ regF → destination i r = false → t.reg r = s.reg r) ∧
    (writesFlag i = false → destination i regF = false → t.reg regF = s.reg regF) ∧
    (writesFlag i = true → s.params.flagOrder = .flagLast ∨ destination i regF = false →
      t.reg regF = 0#8 ∨ t.reg regF = 1#8)

/-- Each piece of state other than the registers is changed by its own instructions only (R16 to R23), and none by an
instruction that the rules do not name. -/
def Obligations.EachPieceHasItsWriters : Prop :=
  ∀ (i : Instr) (s t : State), exec i s = .next t →
    (t.i = s.i ∨ (∃ nnn, i = .ldI nnn) ∨ (∃ x, i = .addI x) ∨ (∃ x, i = .ldF x)) ∧
    (t.stack = s.stack ∨ i = .ret ∨ (∃ nnn, i = .call nnn)) ∧
    (t.fb = s.fb ∨ i = .cls ∨ (∃ x y n, i = .drw x y n)) ∧
    (t.mem = s.mem ∨ (∃ x, i = .ldB x) ∨ (∃ x, i = .storeRegs x)) ∧
    (t.dt = s.dt ∨ ∃ x, i = .ldDtVx x) ∧
    (t.st = s.st ∨ ∃ x, i = .ldStVx x) ∧
    (t.keyq = s.keyq ∨ (∃ x, i = .skp x) ∨ (∃ x, i = .sknp x) ∨ (∃ x, i = .ldVxK x)) ∧
    (t.waiting = s.waiting ∨ ∃ x, i = .ldVxK x) ∧
    (t.pc = s.pc ∨ i = .ret ∨ (∃ nnn, i = .jp nnn ∨ i = .call nnn ∨ i = .jpV0 nnn) ∨
      (∃ x nn, i = .seByte x nn ∨ i = .sneByte x nn) ∨ (∃ x y, i = .seReg x y ∨ i = .sneReg x y) ∨
      (∃ x, i = .skp x ∨ i = .sknp x)) ∧
    t.halted = s.halted ∧ t.params = s.params ∧ t.schedule = s.schedule ∧ t.outputs = s.outputs

/-! ### Control transfer -/

/-- JP addr (R65). -/
def Obligations.JumpSetsPc : Prop :=
  Selects 0x1000#16 0xF000#16 (fun w => .jp (fieldNNN w)) ∧
  ∀ (nnn : Addr) (s : State), ∃ t, exec (.jp nnn) s = .next t ∧ t.pc.toNat = nnn.toNat ∧ t = { s with pc := t.pc } ∧
    s.SameBytes t

/-- RET (R66). -/
def Obligations.ReturnPopsPc : Prop :=
  Selects 0x00EE#16 0xFFFF#16 (fun _ => .ret) ∧
  (∀ (rest : List Word) (v : Word) (s : State), s.stack = rest ++ [v] →
    exec .ret s = .next { s with pc := v, stack := rest }) ∧
  (∀ s : State, s.stack = [] → exec .ret s = .fault (.boundsError .stackUnderflow))

/-- CALL addr (R68): it pushes the PC that is already the next instruction's, unless the stack holds `STACK_DEPTH`
entries; unbounded, it raises nothing. -/
def Obligations.CallPushesPc : Prop :=
  Selects 0x2000#16 0xF000#16 (fun w => .call (fieldNNN w)) ∧
  (∀ (nnn : Addr) (s : State), s.params.stackDepth ≠ some s.stack.length →
    ∃ t, exec (.call nnn) s = .next t ∧ t.pc.toNat = nnn.toNat ∧ t = { s with pc := t.pc, stack := s.stack ++ [s.pc] }) ∧
  (∀ (nnn : Addr) (s : State), s.params.stackDepth = some s.stack.length →
    exec (.call nnn) s = .fault (.boundsError .stackOverflow))

/-- A RET that matches a CALL resumes after it, with the stack as before the CALL, whatever ran in between (R67). -/
def Obligations.ReturnMatchesCall : Prop :=
  ∀ (nnn : Addr) (s t u : State), exec (.call nnn) s = .next t → u.stack = t.stack →
    ∃ v, exec .ret u = .next v ∧ v.pc = s.pc ∧ v.stack = s.stack

/-- JP V0, addr (R69): the sum with `V0`, not reduced modulo 2^12. -/
def Obligations.JumpAddsV0 : Prop :=
  Selects 0xB000#16 0xF000#16 (fun w => .jpV0 (fieldNNN w)) ∧
  ∀ (nnn : Addr) (s : State), ∃ t, exec (.jpV0 nnn) s = .next t ∧
    t.pc.toNat = nnn.toNat + (s.reg 0x0#4).toNat ∧ t = { s with pc := t.pc } ∧ s.SameBytes t

/-- SE Vx, byte and SNE Vx, byte (R70, R71). -/
def Obligations.SkipOnConstant : Prop :=
  Selects 0x3000#16 0xF000#16 (fun w => .seByte (fieldX w) (fieldNN w)) ∧
  Selects 0x4000#16 0xF000#16 (fun w => .sneByte (fieldX w) (fieldNN w)) ∧
  ∀ (x : Reg) (nn : Byte) (s : State),
    exec (.seByte x nn) s = .next { s with pc := if s.reg x = nn then s.pc + 2#16 else s.pc } ∧
    exec (.sneByte x nn) s = .next { s with pc := if s.reg x ≠ nn then s.pc + 2#16 else s.pc }

/-- SE Vx, Vy and SNE Vx, Vy (R72, R73); the low nibble is not examined (R55). -/
def Obligations.SkipOnRegister : Prop :=
  Selects 0x5000#16 0xF000#16 (fun w => .seReg (fieldX w) (fieldY w)) ∧
  Selects 0x9000#16 0xF000#16 (fun w => .sneReg (fieldX w) (fieldY w)) ∧
  ∀ (x y : Reg) (s : State),
    exec (.seReg x y) s = .next { s with pc := if s.reg x = s.reg y then s.pc + 2#16 else s.pc } ∧
    exec (.sneReg x y) s = .next { s with pc := if s.reg x ≠ s.reg y then s.pc + 2#16 else s.pc }

/-! ### Registers -/

/-- LD Vx, byte and LD Vx, Vy (R76, R78). -/
def Obligations.RegisterLoads : Prop :=
  Selects 0x6000#16 0xF000#16 (fun w => .ldByte (fieldX w) (fieldNN w)) ∧
  Selects 0x8000#16 0xF00F#16 (fun w => .ldReg (fieldX w) (fieldY w)) ∧
  ∀ (x y : Reg) (nn : Byte) (s : State),
    (∃ t, exec (.ldByte x nn) s = .next t ∧ t.reg x = nn ∧ t = { s with regs := t.regs } ∧ s.SameRegsBut t [x]) ∧
    (∃ t, exec (.ldReg x y) s = .next t ∧ t.reg x = s.reg y ∧ t = { s with regs := t.regs } ∧ s.SameRegsBut t [x])

/-- ADD Vx, byte (R77): modulo 256, no flag. -/
def Obligations.AddConstantWraps : Prop :=
  Selects 0x7000#16 0xF000#16 (fun w => .addByte (fieldX w) (fieldNN w)) ∧
  ∀ (x : Reg) (nn : Byte) (s : State), ∃ t, exec (.addByte x nn) s = .next t ∧
    (t.reg x).toNat = ((s.reg x).toNat + nn.toNat) % 256 ∧ t = { s with regs := t.regs } ∧ s.SameRegsBut t [x]

/-- OR, AND, XOR (R81, R82, R83), bit by bit; `VF` is written only as `Vx`. -/
def Obligations.LogicIsBitwise : Prop :=
  Selects 0x8001#16 0xF00F#16 (fun w => .orReg (fieldX w) (fieldY w)) ∧
  Selects 0x8002#16 0xF00F#16 (fun w => .andReg (fieldX w) (fieldY w)) ∧
  Selects 0x8003#16 0xF00F#16 (fun w => .xorReg (fieldX w) (fieldY w)) ∧
  ∀ (x y : Reg) (s : State),
    (∃ t, exec (.orReg x y) s = .next t ∧ t = { s with regs := t.regs } ∧ s.SameRegsBut t [x] ∧
      ∀ k, k < 8 → (t.reg x).getLsbD k = ((s.reg x).getLsbD k || (s.reg y).getLsbD k)) ∧
    (∃ t, exec (.andReg x y) s = .next t ∧ t = { s with regs := t.regs } ∧ s.SameRegsBut t [x] ∧
      ∀ k, k < 8 → (t.reg x).getLsbD k = ((s.reg x).getLsbD k && (s.reg y).getLsbD k)) ∧
    (∃ t, exec (.xorReg x y) s = .next t ∧ t = { s with regs := t.regs } ∧ s.SameRegsBut t [x] ∧
      ∀ k, k < 8 → (t.reg x).getLsbD k = ((s.reg x).getLsbD k ^^ (s.reg y).getLsbD k))

/-- ADD Vx, Vy (R84), with the order of the two writes (R80). -/
def Obligations.AddSetsCarry : Prop :=
  Selects 0x8004#16 0xF00F#16 (fun w => .addReg (fieldX w) (fieldY w)) ∧
  ∀ (x y : Reg) (s : State), ∃ t v, exec (.addReg x y) s = .next t ∧
    v.toNat = ((s.reg x).toNat + (s.reg y).toNat) % 256 ∧
    s.ResultAndFlag t x v (flagIs (255 < (s.reg x).toNat + (s.reg y).toNat)) ∧
    t = { s with regs := t.regs } ∧ s.SameRegsBut t [x, regF]

/-- SUB and SUBN (R85, R87): modulo 256, the flag set when there is no borrow. -/
def Obligations.SubtractSetsNoBorrow : Prop :=
  Selects 0x8005#16 0xF00F#16 (fun w => .sub (fieldX w) (fieldY w)) ∧
  Selects 0x8007#16 0xF00F#16 (fun w => .subn (fieldX w) (fieldY w)) ∧
  ∀ (x y : Reg) (s : State),
    (∃ t v, exec (.sub x y) s = .next t ∧
      (v.toNat : Int) = ((s.reg x).toNat - (s.reg y).toNat : Int) % 256 ∧
      s.ResultAndFlag t x v (flagIs ((s.reg y).toNat ≤ (s.reg x).toNat)) ∧
      t = { s with regs := t.regs } ∧ s.SameRegsBut t [x, regF]) ∧
    (∃ t v, exec (.subn x y) s = .next t ∧
      (v.toNat : Int) = ((s.reg y).toNat - (s.reg x).toNat : Int) % 256 ∧
      s.ResultAndFlag t x v (flagIs ((s.reg x).toNat ≤ (s.reg y).toNat)) ∧
      t = { s with regs := t.regs } ∧ s.SameRegsBut t [x, regF])

/-- SHR and SHL (R86, R88, R89): one place, a zero in, the bit shifted out to the flag; the source by `SHIFT_SRC`. -/
def Obligations.ShiftMovesOneBit : Prop :=
  Selects 0x8006#16 0xF00F#16 (fun w => .shr (fieldX w) (fieldY w)) ∧
  Selects 0x800E#16 0xF00F#16 (fun w => .shl (fieldX w) (fieldY w)) ∧
  ∀ (x y : Reg) (s : State) (src : Byte),
    src = s.reg (match s.params.shiftSrc with
      | .x => x
      | .y => y) →
    (∃ t v, exec (.shr x y) s = .next t ∧ v.toNat = src.toNat / 2 ∧
      s.ResultAndFlag t x v (flagIs (src.toNat % 2 = 1)) ∧
      t = { s with regs := t.regs } ∧ s.SameRegsBut t [x, regF]) ∧
    (∃ t v, exec (.shl x y) s = .next t ∧ v.toNat = src.toNat * 2 % 256 ∧
      s.ResultAndFlag t x v (flagIs (128 ≤ src.toNat)) ∧
      t = { s with regs := t.regs } ∧ s.SameRegsBut t [x, regF])

/-- RND Vx, byte (R91): the free byte of this draw, masked; no bit outside the mask; the draw is counted. -/
def Obligations.RandomIsMasked : Prop :=
  Selects 0xC000#16 0xF000#16 (fun w => .rnd (fieldX w) (fieldNN w)) ∧
  ∀ (x : Reg) (nn : Byte) (s : State), ∃ t, exec (.rnd x nn) s = .next t ∧
    (∀ k, k < 8 → (t.reg x).getLsbD k = ((Config.randomByte s.freeCount).getLsbD k && nn.getLsbD k)) ∧
    t.reg x &&& ~~~nn = 0#8 ∧
    t = { s with regs := t.regs, freeCount := s.freeCount + 1 } ∧ s.SameRegsBut t [x]

/-! ### Index register and memory -/

/-- LD I, addr and ADD I, Vx (R94, R95): 16 bits, no flag. -/
def Obligations.IndexLoadAndAdd : Prop :=
  Selects 0xA000#16 0xF000#16 (fun w => .ldI (fieldNNN w)) ∧
  Selects 0xF01E#16 0xF0FF#16 (fun w => .addI (fieldX w)) ∧
  ∀ (nnn : Addr) (x : Reg) (s : State),
    (∃ t, exec (.ldI nnn) s = .next t ∧ t.i.toNat = nnn.toNat ∧ t = { s with i := t.i } ∧ s.SameBytes t) ∧
    (∃ t, exec (.addI x) s = .next t ∧ t.i.toNat = (s.i.toNat + (s.reg x).toNat) % 65536 ∧ t = { s with i := t.i } ∧
      s.SameBytes t)

/-- LD F, Vx (R96), for both readings of `FONT_BASE` and every `Vx`, above 15 too. -/
def Obligations.GlyphAddressFormula : Prop :=
  Selects 0xF029#16 0xF0FF#16 (fun w => .ldF (fieldX w)) ∧
  ∀ (x : Reg) (s : State), ∃ t, exec (.ldF x) s = .next t ∧
    t.i.toNat = ((match s.params.fontPlace with
      | .belowProgram => 0x1B0
      | .topOfMemory => 0xFB0) + 5 * (s.reg x).toNat) % 65536 ∧
    t = { s with i := t.i } ∧ s.SameBytes t

/-- For a digit and memory that holds the font where creation put it, LD F, Vx leaves in `I` the address of the digit's
five glyph rows (R27, R96). -/
def Obligations.GlyphRowsAtIndex : Prop :=
  ∀ (x : Reg) (s : State), (s.reg x).toNat ≤ 15 →
    (∀ a, s.params.fontBase ≤ a → a < s.params.fontBase + 80 → s.peek a = (State.created s.params).peek a) →
    ∃ t, exec (.ldF x) s = .next t ∧
      ∀ k, k < 5 → t.peek (t.i.toNat + k) = s.params.font.getD (5 * (s.reg x).toNat + k) 0#8

/-- LD B, Vx (R97): the three digits at `I`, `I+1`, `I+2`, and nothing else changes. -/
def Obligations.DecimalStore : Prop :=
  Selects 0xF033#16 0xF0FF#16 (fun w => .ldB (fieldX w)) ∧
  (∀ (x : Reg) (s : State), s.i.toNat + 2 ≤ 0xFFF →
    ∃ t, exec (.ldB x) s = .next t ∧ t = { s with mem := t.mem } ∧
      (t.peek s.i.toNat).toNat = (s.reg x).toNat / 100 ∧
      (t.peek (s.i.toNat + 1)).toNat = (s.reg x).toNat / 10 % 10 ∧
      (t.peek (s.i.toNat + 2)).toNat = (s.reg x).toNat % 10 ∧
      ∀ a, a < s.i.toNat ∨ s.i.toNat + 2 < a → t.peek a = s.peek a) ∧
  (∀ (x : Reg) (s : State), 0xFFF < s.i.toNat + 2 →
    exec (.ldB x) s = .fault (.boundsError (.memWrite (max s.i.toNat 0x1000))))

/-- LD [I], Vx (R98, R101): `V0..VX` to `I..I+X`, and nothing else changes. -/
def Obligations.RegisterStore : Prop :=
  Selects 0xF055#16 0xF0FF#16 (fun w => .storeRegs (fieldX w)) ∧
  (∀ (x : Reg) (s : State), s.i.toNat + x.toNat ≤ 0xFFF →
    ∃ t, exec (.storeRegs x) s = .next t ∧ t = { s with mem := t.mem } ∧
      (∀ r : Reg, r.toNat ≤ x.toNat → t.peek (s.i.toNat + r.toNat) = s.reg r) ∧
      ∀ a, a < s.i.toNat ∨ s.i.toNat + x.toNat < a → t.peek a = s.peek a) ∧
  (∀ (x : Reg) (s : State), 0xFFF < s.i.toNat + x.toNat →
    exec (.storeRegs x) s = .fault (.boundsError (.memWrite (max s.i.toNat 0x1000))))

/-- LD Vx, [I] (R98, R102): `V0..VX` from `I..I+X`; the registers above, `I` and memory unchanged. -/
def Obligations.RegisterLoadBlock : Prop :=
  Selects 0xF065#16 0xF0FF#16 (fun w => .loadRegs (fieldX w)) ∧
  (∀ (x : Reg) (s : State), s.i.toNat + x.toNat ≤ 0xFFF →
    ∃ t, exec (.loadRegs x) s = .next t ∧ t = { s with regs := t.regs } ∧ s.SameBytes t ∧
      (∀ r : Reg, r.toNat ≤ x.toNat → t.reg r = s.peek (s.i.toNat + r.toNat)) ∧
      ∀ r : Reg, x.toNat < r.toNat → t.reg r = s.reg r) ∧
  (∀ (x : Reg) (s : State), 0xFFF < s.i.toNat + x.toNat →
    exec (.loadRegs x) s = .fault (.boundsError (.memRead (max s.i.toNat 0x1000))))

/-- What a block store wrote, a block load from the same `I` brings back, whatever else changed in between. -/
def Obligations.StoreThenLoadRestores : Prop :=
  ∀ (x : Reg) (s t u : State), exec (.storeRegs x) s = .next t → t.SameBytes u → u.i = s.i →
    ∃ v, exec (.loadRegs x) u = .next v ∧ ∀ r : Reg, r.toNat ≤ x.toNat → v.reg r = s.reg r

/-- Self-modifying code: a fetch from bytes just stored reads the stored bytes, the lower address as the high byte
(R32, R44). -/
def Obligations.StoreIsSeenByFetch : Prop :=
  ∀ (x r q : Reg) (s t u : State), exec (.storeRegs x) s = .next t → t.SameBytes u →
    q.toNat = r.toNat + 1 → q.toNat ≤ x.toNat → u.pc.toNat = s.i.toNat + r.toNat →
    ∃ w, u.fetchWord = .ok w ∧ w.toNat = (s.reg r).toNat * 256 + (s.reg q).toNat

/-! ### Display -/

/-- CLS (R104): every pixel 0, and nothing else changes. -/
def Obligations.ClearDisplay : Prop :=
  Selects 0x00E0#16 0xFFFF#16 (fun _ => .cls) ∧
  ∀ s : State, ∃ t, exec .cls s = .next t ∧ t = { s with fb := t.fb } ∧ s.SameBytes t ∧
    ∀ px py, px < 64 → py < 32 → Framebuffer.pixel t.fb px py = false

/-- DRW (R106, R108): `N` bytes from `I` on; each pixel under a set sprite bit is toggled, wrapping in both axes, every
other pixel unchanged; `VF` is 1 if and only if such a pixel was set; nothing else changes. -/
def Obligations.DrawTogglesCoveredPixels : Prop :=
  Selects 0xD000#16 0xF000#16 (fun w => .drw (fieldX w) (fieldY w) (fieldN w)) ∧
  (∀ (x y : Reg) (n : Nibble) (s : State), n = 0#4 ∨ s.i.toNat + n.toNat - 1 ≤ 0xFFF →
    ∃ t rows, exec (.drw x y n) s = .next t ∧
      rows.length = n.toNat ∧ (∀ r, r < n.toNat → rows.getD r 0#8 = s.peek (s.i.toNat + r)) ∧
      (∀ px py, px < 64 → py < 32 →
        (covers rows (s.reg x).toNat (s.reg y).toNat px py →
          Framebuffer.pixel t.fb px py = !Framebuffer.pixel s.fb px py) ∧
        (¬ covers rows (s.reg x).toNat (s.reg y).toNat px py →
          Framebuffer.pixel t.fb px py = Framebuffer.pixel s.fb px py)) ∧
      (t.reg regF = 0#8 ∨ t.reg regF = 1#8) ∧
      (t.reg regF = 1#8 ↔ ∃ px py, px < 64 ∧ py < 32 ∧ covers rows (s.reg x).toNat (s.reg y).toNat px py ∧
        Framebuffer.pixel s.fb px py = true) ∧
      t = { s with regs := t.regs, fb := t.fb } ∧ s.SameRegsBut t [regF] ∧ s.SameBytes t) ∧
  (∀ (x y : Reg) (n : Nibble) (s : State), n ≠ 0#4 → 0xFFF < s.i.toNat + n.toNat - 1 →
    exec (.drw x y n) s = .fault (.boundsError (.memRead (max s.i.toNat 0x1000))))

/-- Drawing the same sprite twice at the same place restores the framebuffer; the second DRW ends with `VF = 1` if and
only if some set sprite bit covers a pixel that was 0 before the first (R108(g)). -/
def Obligations.DrawTwiceRestores : Prop :=
  ∀ (x y : Reg) (n : Nibble) (s t u : State), exec (.drw x y n) s = .next t →
    u.fb = t.fb → u.i = s.i → u.reg x = s.reg x → u.reg y = s.reg y → s.SameBytes u →
    ∃ v, exec (.drw x y n) u = .next v ∧ v.fb = s.fb ∧
      (v.reg regF = 1#8 ↔ ∃ px py r, px < 64 ∧ py < 32 ∧ r < n.toNat ∧
        covers [s.peek (s.i.toNat + r)] (s.reg x).toNat ((s.reg y).toNat + r) px py ∧
        Framebuffer.pixel s.fb px py = false)

/-! ### Keys and timers -/

/-- SKP Vx (R110, R116): the front key, at 8 bits, against all of `Vx`; only equality removes it and skips. -/
def Obligations.SkipIfKeyConsumes : Prop :=
  Selects 0xE09E#16 0xF0FF#16 (fun w => .skp (fieldX w)) ∧
  ∀ (x : Reg) (s : State),
    (∀ k rest, s.keyq = k :: rest → k.toNat = (s.reg x).toNat →
      exec (.skp x) s = .next { s with pc := s.pc + 2#16, keyq := rest }) ∧
    (∀ k rest, s.keyq = k :: rest → k.toNat ≠ (s.reg x).toNat → exec (.skp x) s = .next s) ∧
    (s.keyq = [] → exec (.skp x) s = .next s)

/-- SKNP Vx (R111, R116): an empty queue or a different front skips and keeps the queue; an equal front does not skip,
and goes only under `SKNP_EQ_CONSUMES`. -/
def Obligations.SkipIfNotKeyKeeps : Prop :=
  Selects 0xE0A1#16 0xF0FF#16 (fun w => .sknp (fieldX w)) ∧
  ∀ (x : Reg) (s : State),
    (∀ k rest, s.keyq = k :: rest → k.toNat = (s.reg x).toNat →
      exec (.sknp x) s = .next { s with keyq := if s.params.sknpEqConsumes then rest else s.keyq }) ∧
    (∀ k rest, s.keyq = k :: rest → k.toNat ≠ (s.reg x).toNat →
      exec (.sknp x) s = .next { s with pc := s.pc + 2#16 }) ∧
    (s.keyq = [] → exec (.sknp x) s = .next { s with pc := s.pc + 2#16 })

/-- LD Vx, K (R112): the front key at once if there is one; else the CPU is held, and nothing else changes. -/
def Obligations.KeyWaitTakesOrHolds : Prop :=
  Selects 0xF00A#16 0xF0FF#16 (fun w => .ldVxK (fieldX w)) ∧
  ∀ (x : Reg) (s : State),
    (∀ k rest, s.keyq = k :: rest → ∃ t, exec (.ldVxK x) s = .next t ∧ (t.reg x).toNat = k.toNat ∧
      t = { s with regs := t.regs, keyq := rest, waiting := none } ∧ s.SameRegsBut t [x]) ∧
    (s.keyq = [] → exec (.ldVxK x) s = .next { s with waiting := some x })

/-- A held CPU does nothing at its turn while the queue is empty; with a key there it takes the front and goes on, PC
unchanged (R25, R112, R142). -/
def Obligations.HeldCpuWaitsForKey : Prop :=
  ∀ (s : State) (x : Reg), s.CpuNext → s.halted = .running → s.waiting = some x →
    (s.keyq = [] → step s = .next { s with schedule := s.schedule.tail }) ∧
    (∀ k rest, s.keyq = k :: rest → ∃ t, step s = .next t ∧ (t.reg x).toNat = k.toNat ∧
      t = { s with regs := t.regs, keyq := rest, waiting := none, schedule := s.schedule.tail } ∧
      s.SameRegsBut t [x])

/-- The source's example S10: LD Vx, K with an empty queue, then a push, then the CPU's turn: exactly that key, and an
empty queue (R112, R132). -/
def Obligations.KeyWaitReturnsPushedKey : Prop :=
  ∀ (x : Reg) (k : Key) (s t : State) (rest : List Turn), s.keyq = [] → s.halted = .running →
    s.params.keyqDepth ≠ some 0 → s.schedule = .keyPush k :: .cpu :: rest → exec (.ldVxK x) s = .next t →
    ∃ u v, step t = .next u ∧ step u = .next v ∧ (v.reg x).toNat = k.toNat ∧ v.keyq = [] ∧ v.waiting = none ∧
      v.pc = s.pc ∧ v.schedule = rest

/-- LD Vx, DT; LD DT, Vx; LD ST, Vx (R113, R114, R115). -/
def Obligations.TimerInstructions : Prop :=
  Selects 0xF007#16 0xF0FF#16 (fun w => .ldVxDt (fieldX w)) ∧
  Selects 0xF015#16 0xF0FF#16 (fun w => .ldDtVx (fieldX w)) ∧
  Selects 0xF018#16 0xF0FF#16 (fun w => .ldStVx (fieldX w)) ∧
  ∀ (x : Reg) (s : State),
    (∃ t, exec (.ldVxDt x) s = .next t ∧ t.reg x = s.dt ∧ t = { s with regs := t.regs } ∧ s.SameRegsBut t [x]) ∧
    exec (.ldDtVx x) s = .next { s with dt := s.reg x } ∧
    (∃ t, exec (.ldStVx x) s = .next t ∧ t = { s with st := s.reg x } ∧
      (t.soundActive = true ↔ 0 < (s.reg x).toNat))

/-! ### The other agents -/

/-- `tick_dt` (R126), in whatever state the CPU is: down by one, never below zero, and nothing else changes. -/
def Obligations.DelayTickCountsDown : Prop :=
  ∀ (s : State) (rest : List Turn), s.schedule = .tickDelay :: rest →
    ∃ t, step s = .next t ∧ t.dt.toNat = s.dt.toNat - 1 ∧ t = { s with dt := t.dt, schedule := rest }

/-- `tick_st` (R127, R128, R129): down by one, never below zero; `sound_stop` exactly at the tick that reaches zero;
`sound_active` is `ST > 0`. -/
def Obligations.SoundTickCountsDown : Prop :=
  ∀ (s : State) (rest : List Turn), s.schedule = .tickSound :: rest →
    ∃ t, step s = .next t ∧ t.st.toNat = s.st.toNat - 1 ∧
      t.outputs = (if s.st.toNat = 1 then s.outputs ++ [.soundStop] else s.outputs) ∧
      t = { s with st := t.st, outputs := t.outputs, schedule := rest } ∧
      (t.soundActive = true ↔ 1 < s.st.toNat)

/-- `key_push(k)` (R132): to the back of the queue if it has room; on a full bounded queue the turn changes nothing
(log entry 11). -/
def Obligations.KeyPushAppends : Prop :=
  ∀ (s : State) (k : Key) (rest : List Turn), s.schedule = .keyPush k :: rest →
    ((∀ d, s.params.keyqDepth = some d → s.keyq.length < d) →
      step s = .next { s with keyq := s.keyq ++ [k], schedule := rest }) ∧
    ((∃ d, s.params.keyqDepth = some d ∧ d ≤ s.keyq.length) → step s = .next { s with schedule := rest })

/-- `fb_sample` (R133): the reader gets all 2048 pixels, and nothing of the machine changes. -/
def Obligations.SampleIsWholeGrid : Prop :=
  ∀ (s : State) (rest : List Turn), s.schedule = .sample :: rest →
    step s = .next { s with outputs := s.outputs ++ [.frame s.fb], schedule := rest }

/-- No turn of another agent changes what is private to the CPU, nor the framebuffer (R29, R41, R141). -/
def Obligations.AgentsLeaveCpuState : Prop :=
  ∀ (s : State) (a : Turn) (rest : List Turn), s.schedule = a :: rest → a ≠ .cpu →
    ∃ t, step s = .next t ∧ t.schedule = rest ∧ t.regs = s.regs ∧ t.i = s.i ∧ t.pc = s.pc ∧ t.stack = s.stack ∧
      t.mem = s.mem ∧ t.fb = s.fb ∧ t.waiting = s.waiting ∧ t.halted = s.halted ∧ t.freeCount = s.freeCount

/-- A delay tick before an instruction that neither reads nor writes `DT` has the same result as the tick after it
(R40, R41). -/
def Obligations.DelayTickCommutes : Prop :=
  ∀ (i : Instr) (s t : State), (∀ x, i ≠ .ldVxDt x) → (∀ x, i ≠ .ldDtVx x) → exec i s = .next t →
    exec i s.tickDelay = .next t.tickDelay

/-! ### Creation, load, run start -/

/-- Creation (R143, R144): everything zero, empty and running, and the font's bytes at `FONT_BASE`. -/
def Obligations.CreationIsZeroFilled : Prop :=
  ∀ p : Params, ∀ s : State, s = State.created p →
    (∀ r, s.reg r = 0#8) ∧ s.i = 0#16 ∧ s.pc = 0#16 ∧ s.stack = [] ∧ s.dt = 0#8 ∧ s.st = 0#8 ∧
    (∀ px py, px < 64 → py < 32 → Framebuffer.pixel s.fb px py = false) ∧ s.keyq = [] ∧ s.waiting = none ∧
    s.halted = .running ∧
    (∀ d k, d < 16 → k < 5 → s.peek (p.fontBase + 5 * d + k) = p.font.getD (5 * d + k) 0#8) ∧
    (∀ a, a < p.fontBase ∨ p.fontBase + 80 ≤ a → s.peek a = 0#8)

/-- `load` (R145, R146): too long an image is a load error, copies nothing and starts no run; any other is copied
verbatim from 0x200 on, and every other byte keeps its value. -/
def Obligations.LoadCopiesImage : Prop :=
  ∀ (image : List Byte) (s : State),
    (3584 < image.length →
      s.load image = .fault (.loadError image.length) ∧ ∀ p, boot p image = .fault (.loadError image.length)) ∧
    (image.length ≤ 3584 → ∃ t, s.load image = .next t ∧ t = { s with mem := t.mem } ∧
      (∀ k, k < image.length → t.peek (0x200 + k) = image.getD k 0#8) ∧
      ∀ a, a < 0x200 ∨ 0x200 + image.length ≤ a → t.peek a = s.peek a)

/-- Creation, load and run start (R143 to R147): PC is 0x200, the first word fetched is the image's first two bytes, the
rest is as created; with no image it is the reset state. -/
def Obligations.BootRunsImage : Prop :=
  (∀ (p : Params) (image : List Byte), image.length ≤ 3584 →
    ∃ s, boot p image = .next s ∧ s = { State.created p with mem := s.mem, pc := 0x200#16 } ∧
      (2 ≤ image.length → ∃ w, s.fetchWord = .ok w ∧
        w.toNat = (image.getD 0 0#8).toNat * 256 + (image.getD 1 0#8).toNat)) ∧
  boot Params.default [] = .next State.reset

/-! ### The end of a run -/

/-- The end of a run (R155, R120).  A halted or a held state is no end state.  In an end state the CPU's turns change no
state, and whatever turns follow, the run goes on in end states with the CPU's own state and the framebuffer as they
were.  A run has at most one first end state, and a run that halts has none, before or after. -/
def Obligations.EndStateStays : Prop :=
  (∀ s : State, (∃ e, s.halted = .halted e) ∨ (∃ x, s.waiting = some x) → ¬ s.AtEnd) ∧
  (∀ s : State, s.AtEnd →
    (s.CpuNext → step s = .next s.turnTaken) ∧
    ∀ n, ∃ t, State.after n s = some t ∧ t.AtEnd ∧ t.regs = s.regs ∧ t.i = s.i ∧ t.pc = s.pc ∧ t.stack = s.stack ∧
      t.mem = s.mem ∧ t.fb = s.fb ∧ t.freeCount = s.freeCount) ∧
  (∀ (s t u : State) (n m : Nat), s.EndsAfter n t → s.EndsAfter m u → n = m ∧ t = u) ∧
  ∀ (s t : State) (n : Nat) (e : Fault), State.after n s = some t → t.halted = .halted e →
    ∀ m u, State.after m s = some u → ¬ u.AtEnd
end

