-- ==== Sys2Proof/Laws/State.lean ====
section
/-!
SUPPORT. What each update of the state does to each field, one lemma per field per update, and what it does to the reads
of a register and of a byte.
-/
namespace Sys2Proof.Machine

/-! ### setReg -/

@[simp] theorem State.setReg_regs (s : State) (r : Reg) (v : Byte) : (s.setReg r v).regs = s.regs.set r.toNat v r.isLt := rfl
@[simp] theorem State.setReg_i (s : State) (r : Reg) (v : Byte) : (s.setReg r v).i = s.i := rfl
@[simp] theorem State.setReg_pc (s : State) (r : Reg) (v : Byte) : (s.setReg r v).pc = s.pc := rfl
@[simp] theorem State.setReg_stack (s : State) (r : Reg) (v : Byte) : (s.setReg r v).stack = s.stack := rfl
@[simp] theorem State.setReg_dt (s : State) (r : Reg) (v : Byte) : (s.setReg r v).dt = s.dt := rfl
@[simp] theorem State.setReg_st (s : State) (r : Reg) (v : Byte) : (s.setReg r v).st = s.st := rfl
@[simp] theorem State.setReg_mem (s : State) (r : Reg) (v : Byte) : (s.setReg r v).mem = s.mem := rfl
@[simp] theorem State.setReg_fb (s : State) (r : Reg) (v : Byte) : (s.setReg r v).fb = s.fb := rfl
@[simp] theorem State.setReg_keyq (s : State) (r : Reg) (v : Byte) : (s.setReg r v).keyq = s.keyq := rfl
@[simp] theorem State.setReg_waiting (s : State) (r : Reg) (v : Byte) : (s.setReg r v).waiting = s.waiting := rfl
@[simp] theorem State.setReg_halted (s : State) (r : Reg) (v : Byte) : (s.setReg r v).halted = s.halted := rfl
@[simp] theorem State.setReg_params (s : State) (r : Reg) (v : Byte) : (s.setReg r v).params = s.params := rfl
@[simp] theorem State.setReg_schedule (s : State) (r : Reg) (v : Byte) : (s.setReg r v).schedule = s.schedule := rfl
@[simp] theorem State.setReg_freeCount (s : State) (r : Reg) (v : Byte) : (s.setReg r v).freeCount = s.freeCount := rfl
@[simp] theorem State.setReg_outputs (s : State) (r : Reg) (v : Byte) : (s.setReg r v).outputs = s.outputs := rfl
@[simp] theorem State.setReg_peek (s : State) (r : Reg) (v : Byte) (b : Nat) : (s.setReg r v).peek b = s.peek b := rfl

/-! ### setI -/

@[simp] theorem State.setI_regs (s : State) (v : Word) : (s.setI v).regs = s.regs := rfl
@[simp] theorem State.setI_i (s : State) (v : Word) : (s.setI v).i = v := rfl
@[simp] theorem State.setI_pc (s : State) (v : Word) : (s.setI v).pc = s.pc := rfl
@[simp] theorem State.setI_stack (s : State) (v : Word) : (s.setI v).stack = s.stack := rfl
@[simp] theorem State.setI_dt (s : State) (v : Word) : (s.setI v).dt = s.dt := rfl
@[simp] theorem State.setI_st (s : State) (v : Word) : (s.setI v).st = s.st := rfl
@[simp] theorem State.setI_mem (s : State) (v : Word) : (s.setI v).mem = s.mem := rfl
@[simp] theorem State.setI_fb (s : State) (v : Word) : (s.setI v).fb = s.fb := rfl
@[simp] theorem State.setI_keyq (s : State) (v : Word) : (s.setI v).keyq = s.keyq := rfl
@[simp] theorem State.setI_waiting (s : State) (v : Word) : (s.setI v).waiting = s.waiting := rfl
@[simp] theorem State.setI_halted (s : State) (v : Word) : (s.setI v).halted = s.halted := rfl
@[simp] theorem State.setI_params (s : State) (v : Word) : (s.setI v).params = s.params := rfl
@[simp] theorem State.setI_schedule (s : State) (v : Word) : (s.setI v).schedule = s.schedule := rfl
@[simp] theorem State.setI_freeCount (s : State) (v : Word) : (s.setI v).freeCount = s.freeCount := rfl
@[simp] theorem State.setI_outputs (s : State) (v : Word) : (s.setI v).outputs = s.outputs := rfl
@[simp] theorem State.setI_reg (s : State) (v : Word) (q : Reg) : (s.setI v).reg q = s.reg q := rfl
@[simp] theorem State.setI_peek (s : State) (v : Word) (b : Nat) : (s.setI v).peek b = s.peek b := rfl

/-! ### setPc -/

@[simp] theorem State.setPc_regs (s : State) (v : Word) : (s.setPc v).regs = s.regs := rfl
@[simp] theorem State.setPc_i (s : State) (v : Word) : (s.setPc v).i = s.i := rfl
@[simp] theorem State.setPc_pc (s : State) (v : Word) : (s.setPc v).pc = v := rfl
@[simp] theorem State.setPc_stack (s : State) (v : Word) : (s.setPc v).stack = s.stack := rfl
@[simp] theorem State.setPc_dt (s : State) (v : Word) : (s.setPc v).dt = s.dt := rfl
@[simp] theorem State.setPc_st (s : State) (v : Word) : (s.setPc v).st = s.st := rfl
@[simp] theorem State.setPc_mem (s : State) (v : Word) : (s.setPc v).mem = s.mem := rfl
@[simp] theorem State.setPc_fb (s : State) (v : Word) : (s.setPc v).fb = s.fb := rfl
@[simp] theorem State.setPc_keyq (s : State) (v : Word) : (s.setPc v).keyq = s.keyq := rfl
@[simp] theorem State.setPc_waiting (s : State) (v : Word) : (s.setPc v).waiting = s.waiting := rfl
@[simp] theorem State.setPc_halted (s : State) (v : Word) : (s.setPc v).halted = s.halted := rfl
@[simp] theorem State.setPc_params (s : State) (v : Word) : (s.setPc v).params = s.params := rfl
@[simp] theorem State.setPc_schedule (s : State) (v : Word) : (s.setPc v).schedule = s.schedule := rfl
@[simp] theorem State.setPc_freeCount (s : State) (v : Word) : (s.setPc v).freeCount = s.freeCount := rfl
@[simp] theorem State.setPc_outputs (s : State) (v : Word) : (s.setPc v).outputs = s.outputs := rfl
@[simp] theorem State.setPc_reg (s : State) (v : Word) (q : Reg) : (s.setPc v).reg q = s.reg q := rfl
@[simp] theorem State.setPc_peek (s : State) (v : Word) (b : Nat) : (s.setPc v).peek b = s.peek b := rfl

/-! ### advance -/

@[simp] theorem State.advance_regs (s : State) : (s.advance).regs = s.regs := rfl
@[simp] theorem State.advance_i (s : State) : (s.advance).i = s.i := rfl
@[simp] theorem State.advance_pc (s : State) : (s.advance).pc = s.pc + 2#16 := rfl
@[simp] theorem State.advance_stack (s : State) : (s.advance).stack = s.stack := rfl
@[simp] theorem State.advance_dt (s : State) : (s.advance).dt = s.dt := rfl
@[simp] theorem State.advance_st (s : State) : (s.advance).st = s.st := rfl
@[simp] theorem State.advance_mem (s : State) : (s.advance).mem = s.mem := rfl
@[simp] theorem State.advance_fb (s : State) : (s.advance).fb = s.fb := rfl
@[simp] theorem State.advance_keyq (s : State) : (s.advance).keyq = s.keyq := rfl
@[simp] theorem State.advance_waiting (s : State) : (s.advance).waiting = s.waiting := rfl
@[simp] theorem State.advance_halted (s : State) : (s.advance).halted = s.halted := rfl
@[simp] theorem State.advance_params (s : State) : (s.advance).params = s.params := rfl
@[simp] theorem State.advance_schedule (s : State) : (s.advance).schedule = s.schedule := rfl
@[simp] theorem State.advance_freeCount (s : State) : (s.advance).freeCount = s.freeCount := rfl
@[simp] theorem State.advance_outputs (s : State) : (s.advance).outputs = s.outputs := rfl
@[simp] theorem State.advance_reg (s : State) (q : Reg) : (s.advance).reg q = s.reg q := rfl
@[simp] theorem State.advance_peek (s : State) (b : Nat) : (s.advance).peek b = s.peek b := rfl

/-! ### push -/

@[simp] theorem State.push_regs (s : State) (v : Word) : (s.push v).regs = s.regs := rfl
@[simp] theorem State.push_i (s : State) (v : Word) : (s.push v).i = s.i := rfl
@[simp] theorem State.push_pc (s : State) (v : Word) : (s.push v).pc = s.pc := rfl
@[simp] theorem State.push_stack (s : State) (v : Word) : (s.push v).stack = s.stack ++ [v] := rfl
@[simp] theorem State.push_dt (s : State) (v : Word) : (s.push v).dt = s.dt := rfl
@[simp] theorem State.push_st (s : State) (v : Word) : (s.push v).st = s.st := rfl
@[simp] theorem State.push_mem (s : State) (v : Word) : (s.push v).mem = s.mem := rfl
@[simp] theorem State.push_fb (s : State) (v : Word) : (s.push v).fb = s.fb := rfl
@[simp] theorem State.push_keyq (s : State) (v : Word) : (s.push v).keyq = s.keyq := rfl
@[simp] theorem State.push_waiting (s : State) (v : Word) : (s.push v).waiting = s.waiting := rfl
@[simp] theorem State.push_halted (s : State) (v : Word) : (s.push v).halted = s.halted := rfl
@[simp] theorem State.push_params (s : State) (v : Word) : (s.push v).params = s.params := rfl
@[simp] theorem State.push_schedule (s : State) (v : Word) : (s.push v).schedule = s.schedule := rfl
@[simp] theorem State.push_freeCount (s : State) (v : Word) : (s.push v).freeCount = s.freeCount := rfl
@[simp] theorem State.push_outputs (s : State) (v : Word) : (s.push v).outputs = s.outputs := rfl
@[simp] theorem State.push_reg (s : State) (v : Word) (q : Reg) : (s.push v).reg q = s.reg q := rfl
@[simp] theorem State.push_peek (s : State) (v : Word) (b : Nat) : (s.push v).peek b = s.peek b := rfl

/-! ### setFb -/

@[simp] theorem State.setFb_regs (s : State) (f : Framebuffer) : (s.setFb f).regs = s.regs := rfl
@[simp] theorem State.setFb_i (s : State) (f : Framebuffer) : (s.setFb f).i = s.i := rfl
@[simp] theorem State.setFb_pc (s : State) (f : Framebuffer) : (s.setFb f).pc = s.pc := rfl
@[simp] theorem State.setFb_stack (s : State) (f : Framebuffer) : (s.setFb f).stack = s.stack := rfl
@[simp] theorem State.setFb_dt (s : State) (f : Framebuffer) : (s.setFb f).dt = s.dt := rfl
@[simp] theorem State.setFb_st (s : State) (f : Framebuffer) : (s.setFb f).st = s.st := rfl
@[simp] theorem State.setFb_mem (s : State) (f : Framebuffer) : (s.setFb f).mem = s.mem := rfl
@[simp] theorem State.setFb_fb (s : State) (f : Framebuffer) : (s.setFb f).fb = f := rfl
@[simp] theorem State.setFb_keyq (s : State) (f : Framebuffer) : (s.setFb f).keyq = s.keyq := rfl
@[simp] theorem State.setFb_waiting (s : State) (f : Framebuffer) : (s.setFb f).waiting = s.waiting := rfl
@[simp] theorem State.setFb_halted (s : State) (f : Framebuffer) : (s.setFb f).halted = s.halted := rfl
@[simp] theorem State.setFb_params (s : State) (f : Framebuffer) : (s.setFb f).params = s.params := rfl
@[simp] theorem State.setFb_schedule (s : State) (f : Framebuffer) : (s.setFb f).schedule = s.schedule := rfl
@[simp] theorem State.setFb_freeCount (s : State) (f : Framebuffer) : (s.setFb f).freeCount = s.freeCount := rfl
@[simp] theorem State.setFb_outputs (s : State) (f : Framebuffer) : (s.setFb f).outputs = s.outputs := rfl
@[simp] theorem State.setFb_reg (s : State) (f : Framebuffer) (q : Reg) : (s.setFb f).reg q = s.reg q := rfl
@[simp] theorem State.setFb_peek (s : State) (f : Framebuffer) (b : Nat) : (s.setFb f).peek b = s.peek b := rfl

/-! ### setDt -/

@[simp] theorem State.setDt_regs (s : State) (v : Byte) : (s.setDt v).regs = s.regs := rfl
@[simp] theorem State.setDt_i (s : State) (v : Byte) : (s.setDt v).i = s.i := rfl
@[simp] theorem State.setDt_pc (s : State) (v : Byte) : (s.setDt v).pc = s.pc := rfl
@[simp] theorem State.setDt_stack (s : State) (v : Byte) : (s.setDt v).stack = s.stack := rfl
@[simp] theorem State.setDt_dt (s : State) (v : Byte) : (s.setDt v).dt = v := rfl
@[simp] theorem State.setDt_st (s : State) (v : Byte) : (s.setDt v).st = s.st := rfl
@[simp] theorem State.setDt_mem (s : State) (v : Byte) : (s.setDt v).mem = s.mem := rfl
@[simp] theorem State.setDt_fb (s : State) (v : Byte) : (s.setDt v).fb = s.fb := rfl
@[simp] theorem State.setDt_keyq (s : State) (v : Byte) : (s.setDt v).keyq = s.keyq := rfl
@[simp] theorem State.setDt_waiting (s : State) (v : Byte) : (s.setDt v).waiting = s.waiting := rfl
@[simp] theorem State.setDt_halted (s : State) (v : Byte) : (s.setDt v).halted = s.halted := rfl
@[simp] theorem State.setDt_params (s : State) (v : Byte) : (s.setDt v).params = s.params := rfl
@[simp] theorem State.setDt_schedule (s : State) (v : Byte) : (s.setDt v).schedule = s.schedule := rfl
@[simp] theorem State.setDt_freeCount (s : State) (v : Byte) : (s.setDt v).freeCount = s.freeCount := rfl
@[simp] theorem State.setDt_outputs (s : State) (v : Byte) : (s.setDt v).outputs = s.outputs := rfl
@[simp] theorem State.setDt_reg (s : State) (v : Byte) (q : Reg) : (s.setDt v).reg q = s.reg q := rfl
@[simp] theorem State.setDt_peek (s : State) (v : Byte) (b : Nat) : (s.setDt v).peek b = s.peek b := rfl

/-! ### setSt -/

@[simp] theorem State.setSt_regs (s : State) (v : Byte) : (s.setSt v).regs = s.regs := rfl
@[simp] theorem State.setSt_i (s : State) (v : Byte) : (s.setSt v).i = s.i := rfl
@[simp] theorem State.setSt_pc (s : State) (v : Byte) : (s.setSt v).pc = s.pc := rfl
@[simp] theorem State.setSt_stack (s : State) (v : Byte) : (s.setSt v).stack = s.stack := rfl
@[simp] theorem State.setSt_dt (s : State) (v : Byte) : (s.setSt v).dt = s.dt := rfl
@[simp] theorem State.setSt_st (s : State) (v : Byte) : (s.setSt v).st = v := rfl
@[simp] theorem State.setSt_mem (s : State) (v : Byte) : (s.setSt v).mem = s.mem := rfl
@[simp] theorem State.setSt_fb (s : State) (v : Byte) : (s.setSt v).fb = s.fb := rfl
@[simp] theorem State.setSt_keyq (s : State) (v : Byte) : (s.setSt v).keyq = s.keyq := rfl
@[simp] theorem State.setSt_waiting (s : State) (v : Byte) : (s.setSt v).waiting = s.waiting := rfl
@[simp] theorem State.setSt_halted (s : State) (v : Byte) : (s.setSt v).halted = s.halted := rfl
@[simp] theorem State.setSt_params (s : State) (v : Byte) : (s.setSt v).params = s.params := rfl
@[simp] theorem State.setSt_schedule (s : State) (v : Byte) : (s.setSt v).schedule = s.schedule := rfl
@[simp] theorem State.setSt_freeCount (s : State) (v : Byte) : (s.setSt v).freeCount = s.freeCount := rfl
@[simp] theorem State.setSt_outputs (s : State) (v : Byte) : (s.setSt v).outputs = s.outputs := rfl
@[simp] theorem State.setSt_reg (s : State) (v : Byte) (q : Reg) : (s.setSt v).reg q = s.reg q := rfl
@[simp] theorem State.setSt_peek (s : State) (v : Byte) (b : Nat) : (s.setSt v).peek b = s.peek b := rfl

/-! ### setKeyq -/

@[simp] theorem State.setKeyq_regs (s : State) (l : List Key) : (s.setKeyq l).regs = s.regs := rfl
@[simp] theorem State.setKeyq_i (s : State) (l : List Key) : (s.setKeyq l).i = s.i := rfl
@[simp] theorem State.setKeyq_pc (s : State) (l : List Key) : (s.setKeyq l).pc = s.pc := rfl
@[simp] theorem State.setKeyq_stack (s : State) (l : List Key) : (s.setKeyq l).stack = s.stack := rfl
@[simp] theorem State.setKeyq_dt (s : State) (l : List Key) : (s.setKeyq l).dt = s.dt := rfl
@[simp] theorem State.setKeyq_st (s : State) (l : List Key) : (s.setKeyq l).st = s.st := rfl
@[simp] theorem State.setKeyq_mem (s : State) (l : List Key) : (s.setKeyq l).mem = s.mem := rfl
@[simp] theorem State.setKeyq_fb (s : State) (l : List Key) : (s.setKeyq l).fb = s.fb := rfl
@[simp] theorem State.setKeyq_keyq (s : State) (l : List Key) : (s.setKeyq l).keyq = l := rfl
@[simp] theorem State.setKeyq_waiting (s : State) (l : List Key) : (s.setKeyq l).waiting = s.waiting := rfl
@[simp] theorem State.setKeyq_halted (s : State) (l : List Key) : (s.setKeyq l).halted = s.halted := rfl
@[simp] theorem State.setKeyq_params (s : State) (l : List Key) : (s.setKeyq l).params = s.params := rfl
@[simp] theorem State.setKeyq_schedule (s : State) (l : List Key) : (s.setKeyq l).schedule = s.schedule := rfl
@[simp] theorem State.setKeyq_freeCount (s : State) (l : List Key) : (s.setKeyq l).freeCount = s.freeCount := rfl
@[simp] theorem State.setKeyq_outputs (s : State) (l : List Key) : (s.setKeyq l).outputs = s.outputs := rfl
@[simp] theorem State.setKeyq_reg (s : State) (l : List Key) (q : Reg) : (s.setKeyq l).reg q = s.reg q := rfl
@[simp] theorem State.setKeyq_peek (s : State) (l : List Key) (b : Nat) : (s.setKeyq l).peek b = s.peek b := rfl

/-! ### setWaiting -/

@[simp] theorem State.setWaiting_regs (s : State) (w : Option Reg) : (s.setWaiting w).regs = s.regs := rfl
@[simp] theorem State.setWaiting_i (s : State) (w : Option Reg) : (s.setWaiting w).i = s.i := rfl
@[simp] theorem State.setWaiting_pc (s : State) (w : Option Reg) : (s.setWaiting w).pc = s.pc := rfl
@[simp] theorem State.setWaiting_stack (s : State) (w : Option Reg) : (s.setWaiting w).stack = s.stack := rfl
@[simp] theorem State.setWaiting_dt (s : State) (w : Option Reg) : (s.setWaiting w).dt = s.dt := rfl
@[simp] theorem State.setWaiting_st (s : State) (w : Option Reg) : (s.setWaiting w).st = s.st := rfl
@[simp] theorem State.setWaiting_mem (s : State) (w : Option Reg) : (s.setWaiting w).mem = s.mem := rfl
@[simp] theorem State.setWaiting_fb (s : State) (w : Option Reg) : (s.setWaiting w).fb = s.fb := rfl
@[simp] theorem State.setWaiting_keyq (s : State) (w : Option Reg) : (s.setWaiting w).keyq = s.keyq := rfl
@[simp] theorem State.setWaiting_waiting (s : State) (w : Option Reg) : (s.setWaiting w).waiting = w := rfl
@[simp] theorem State.setWaiting_halted (s : State) (w : Option Reg) : (s.setWaiting w).halted = s.halted := rfl
@[simp] theorem State.setWaiting_params (s : State) (w : Option Reg) : (s.setWaiting w).params = s.params := rfl
@[simp] theorem State.setWaiting_schedule (s : State) (w : Option Reg) : (s.setWaiting w).schedule = s.schedule := rfl
@[simp] theorem State.setWaiting_freeCount (s : State) (w : Option Reg) : (s.setWaiting w).freeCount = s.freeCount := rfl
@[simp] theorem State.setWaiting_outputs (s : State) (w : Option Reg) : (s.setWaiting w).outputs = s.outputs := rfl
@[simp] theorem State.setWaiting_reg (s : State) (w : Option Reg) (q : Reg) : (s.setWaiting w).reg q = s.reg q := rfl
@[simp] theorem State.setWaiting_peek (s : State) (w : Option Reg) (b : Nat) : (s.setWaiting w).peek b = s.peek b := rfl

/-! ### setSchedule -/

@[simp] theorem State.setSchedule_regs (s : State) (l : List Turn) : (s.setSchedule l).regs = s.regs := rfl
@[simp] theorem State.setSchedule_i (s : State) (l : List Turn) : (s.setSchedule l).i = s.i := rfl
@[simp] theorem State.setSchedule_pc (s : State) (l : List Turn) : (s.setSchedule l).pc = s.pc := rfl
@[simp] theorem State.setSchedule_stack (s : State) (l : List Turn) : (s.setSchedule l).stack = s.stack := rfl
@[simp] theorem State.setSchedule_dt (s : State) (l : List Turn) : (s.setSchedule l).dt = s.dt := rfl
@[simp] theorem State.setSchedule_st (s : State) (l : List Turn) : (s.setSchedule l).st = s.st := rfl
@[simp] theorem State.setSchedule_mem (s : State) (l : List Turn) : (s.setSchedule l).mem = s.mem := rfl
@[simp] theorem State.setSchedule_fb (s : State) (l : List Turn) : (s.setSchedule l).fb = s.fb := rfl
@[simp] theorem State.setSchedule_keyq (s : State) (l : List Turn) : (s.setSchedule l).keyq = s.keyq := rfl
@[simp] theorem State.setSchedule_waiting (s : State) (l : List Turn) : (s.setSchedule l).waiting = s.waiting := rfl
@[simp] theorem State.setSchedule_halted (s : State) (l : List Turn) : (s.setSchedule l).halted = s.halted := rfl
@[simp] theorem State.setSchedule_params (s : State) (l : List Turn) : (s.setSchedule l).params = s.params := rfl
@[simp] theorem State.setSchedule_schedule (s : State) (l : List Turn) : (s.setSchedule l).schedule = l := rfl
@[simp] theorem State.setSchedule_freeCount (s : State) (l : List Turn) : (s.setSchedule l).freeCount = s.freeCount := rfl
@[simp] theorem State.setSchedule_outputs (s : State) (l : List Turn) : (s.setSchedule l).outputs = s.outputs := rfl
@[simp] theorem State.setSchedule_reg (s : State) (l : List Turn) (q : Reg) : (s.setSchedule l).reg q = s.reg q := rfl
@[simp] theorem State.setSchedule_peek (s : State) (l : List Turn) (b : Nat) : (s.setSchedule l).peek b = s.peek b := rfl

/-! ### takeFree -/

@[simp] theorem State.takeFree_regs (s : State) : (s.takeFree).regs = s.regs := rfl
@[simp] theorem State.takeFree_i (s : State) : (s.takeFree).i = s.i := rfl
@[simp] theorem State.takeFree_pc (s : State) : (s.takeFree).pc = s.pc := rfl
@[simp] theorem State.takeFree_stack (s : State) : (s.takeFree).stack = s.stack := rfl
@[simp] theorem State.takeFree_dt (s : State) : (s.takeFree).dt = s.dt := rfl
@[simp] theorem State.takeFree_st (s : State) : (s.takeFree).st = s.st := rfl
@[simp] theorem State.takeFree_mem (s : State) : (s.takeFree).mem = s.mem := rfl
@[simp] theorem State.takeFree_fb (s : State) : (s.takeFree).fb = s.fb := rfl
@[simp] theorem State.takeFree_keyq (s : State) : (s.takeFree).keyq = s.keyq := rfl
@[simp] theorem State.takeFree_waiting (s : State) : (s.takeFree).waiting = s.waiting := rfl
@[simp] theorem State.takeFree_halted (s : State) : (s.takeFree).halted = s.halted := rfl
@[simp] theorem State.takeFree_params (s : State) : (s.takeFree).params = s.params := rfl
@[simp] theorem State.takeFree_schedule (s : State) : (s.takeFree).schedule = s.schedule := rfl
@[simp] theorem State.takeFree_freeCount (s : State) : (s.takeFree).freeCount = s.freeCount + 1 := rfl
@[simp] theorem State.takeFree_outputs (s : State) : (s.takeFree).outputs = s.outputs := rfl
@[simp] theorem State.takeFree_reg (s : State) (q : Reg) : (s.takeFree).reg q = s.reg q := rfl
@[simp] theorem State.takeFree_peek (s : State) (b : Nat) : (s.takeFree).peek b = s.peek b := rfl

/-! ### emit -/

@[simp] theorem State.emit_regs (s : State) (o : Output) : (s.emit o).regs = s.regs := rfl
@[simp] theorem State.emit_i (s : State) (o : Output) : (s.emit o).i = s.i := rfl
@[simp] theorem State.emit_pc (s : State) (o : Output) : (s.emit o).pc = s.pc := rfl
@[simp] theorem State.emit_stack (s : State) (o : Output) : (s.emit o).stack = s.stack := rfl
@[simp] theorem State.emit_dt (s : State) (o : Output) : (s.emit o).dt = s.dt := rfl
@[simp] theorem State.emit_st (s : State) (o : Output) : (s.emit o).st = s.st := rfl
@[simp] theorem State.emit_mem (s : State) (o : Output) : (s.emit o).mem = s.mem := rfl
@[simp] theorem State.emit_fb (s : State) (o : Output) : (s.emit o).fb = s.fb := rfl
@[simp] theorem State.emit_keyq (s : State) (o : Output) : (s.emit o).keyq = s.keyq := rfl
@[simp] theorem State.emit_waiting (s : State) (o : Output) : (s.emit o).waiting = s.waiting := rfl
@[simp] theorem State.emit_halted (s : State) (o : Output) : (s.emit o).halted = s.halted := rfl
@[simp] theorem State.emit_params (s : State) (o : Output) : (s.emit o).params = s.params := rfl
@[simp] theorem State.emit_schedule (s : State) (o : Output) : (s.emit o).schedule = s.schedule := rfl
@[simp] theorem State.emit_freeCount (s : State) (o : Output) : (s.emit o).freeCount = s.freeCount := rfl
@[simp] theorem State.emit_outputs (s : State) (o : Output) : (s.emit o).outputs = s.outputs ++ [o] := rfl
@[simp] theorem State.emit_reg (s : State) (o : Output) (q : Reg) : (s.emit o).reg q = s.reg q := rfl
@[simp] theorem State.emit_peek (s : State) (o : Output) (b : Nat) : (s.emit o).peek b = s.peek b := rfl

/-! ### halt -/

@[simp] theorem State.halt_regs (s : State) (e : Fault) : (s.halt e).regs = s.regs := rfl
@[simp] theorem State.halt_i (s : State) (e : Fault) : (s.halt e).i = s.i := rfl
@[simp] theorem State.halt_pc (s : State) (e : Fault) : (s.halt e).pc = s.pc := rfl
@[simp] theorem State.halt_stack (s : State) (e : Fault) : (s.halt e).stack = s.stack := rfl
@[simp] theorem State.halt_dt (s : State) (e : Fault) : (s.halt e).dt = s.dt := rfl
@[simp] theorem State.halt_st (s : State) (e : Fault) : (s.halt e).st = s.st := rfl
@[simp] theorem State.halt_mem (s : State) (e : Fault) : (s.halt e).mem = s.mem := rfl
@[simp] theorem State.halt_fb (s : State) (e : Fault) : (s.halt e).fb = s.fb := rfl
@[simp] theorem State.halt_keyq (s : State) (e : Fault) : (s.halt e).keyq = s.keyq := rfl
@[simp] theorem State.halt_waiting (s : State) (e : Fault) : (s.halt e).waiting = s.waiting := rfl
@[simp] theorem State.halt_halted (s : State) (e : Fault) : (s.halt e).halted = .halted e := rfl
@[simp] theorem State.halt_params (s : State) (e : Fault) : (s.halt e).params = s.params := rfl
@[simp] theorem State.halt_schedule (s : State) (e : Fault) : (s.halt e).schedule = s.schedule := rfl
@[simp] theorem State.halt_freeCount (s : State) (e : Fault) : (s.halt e).freeCount = s.freeCount := rfl
@[simp] theorem State.halt_outputs (s : State) (e : Fault) : (s.halt e).outputs = s.outputs ++ [.error e] := rfl
@[simp] theorem State.halt_reg (s : State) (e : Fault) (q : Reg) : (s.halt e).reg q = s.reg q := rfl
@[simp] theorem State.halt_peek (s : State) (e : Fault) (b : Nat) : (s.halt e).peek b = s.peek b := rfl

/-! ### poke -/

@[simp] theorem State.poke_regs (s : State) (a : Nat) (v : Byte) : (s.poke a v).regs = s.regs := rfl
@[simp] theorem State.poke_i (s : State) (a : Nat) (v : Byte) : (s.poke a v).i = s.i := rfl
@[simp] theorem State.poke_pc (s : State) (a : Nat) (v : Byte) : (s.poke a v).pc = s.pc := rfl
@[simp] theorem State.poke_stack (s : State) (a : Nat) (v : Byte) : (s.poke a v).stack = s.stack := rfl
@[simp] theorem State.poke_dt (s : State) (a : Nat) (v : Byte) : (s.poke a v).dt = s.dt := rfl
@[simp] theorem State.poke_st (s : State) (a : Nat) (v : Byte) : (s.poke a v).st = s.st := rfl
@[simp] theorem State.poke_mem (s : State) (a : Nat) (v : Byte) : (s.poke a v).mem = Memory.write s.params s.mem a v := rfl
@[simp] theorem State.poke_fb (s : State) (a : Nat) (v : Byte) : (s.poke a v).fb = s.fb := rfl
@[simp] theorem State.poke_keyq (s : State) (a : Nat) (v : Byte) : (s.poke a v).keyq = s.keyq := rfl
@[simp] theorem State.poke_waiting (s : State) (a : Nat) (v : Byte) : (s.poke a v).waiting = s.waiting := rfl
@[simp] theorem State.poke_halted (s : State) (a : Nat) (v : Byte) : (s.poke a v).halted = s.halted := rfl
@[simp] theorem State.poke_params (s : State) (a : Nat) (v : Byte) : (s.poke a v).params = s.params := rfl
@[simp] theorem State.poke_schedule (s : State) (a : Nat) (v : Byte) : (s.poke a v).schedule = s.schedule := rfl
@[simp] theorem State.poke_freeCount (s : State) (a : Nat) (v : Byte) : (s.poke a v).freeCount = s.freeCount := rfl
@[simp] theorem State.poke_outputs (s : State) (a : Nat) (v : Byte) : (s.poke a v).outputs = s.outputs := rfl
@[simp] theorem State.poke_reg (s : State) (a : Nat) (v : Byte) (q : Reg) : (s.poke a v).reg q = s.reg q := rfl

/-! ### setRegRange -/

@[simp] theorem State.setRegRange_regs (s : State) (bs : List Byte) : (s.setRegRange bs).regs = writeRegs 0 bs s.regs := rfl
@[simp] theorem State.setRegRange_i (s : State) (bs : List Byte) : (s.setRegRange bs).i = s.i := rfl
@[simp] theorem State.setRegRange_pc (s : State) (bs : List Byte) : (s.setRegRange bs).pc = s.pc := rfl
@[simp] theorem State.setRegRange_stack (s : State) (bs : List Byte) : (s.setRegRange bs).stack = s.stack := rfl
@[simp] theorem State.setRegRange_dt (s : State) (bs : List Byte) : (s.setRegRange bs).dt = s.dt := rfl
@[simp] theorem State.setRegRange_st (s : State) (bs : List Byte) : (s.setRegRange bs).st = s.st := rfl
@[simp] theorem State.setRegRange_mem (s : State) (bs : List Byte) : (s.setRegRange bs).mem = s.mem := rfl
@[simp] theorem State.setRegRange_fb (s : State) (bs : List Byte) : (s.setRegRange bs).fb = s.fb := rfl
@[simp] theorem State.setRegRange_keyq (s : State) (bs : List Byte) : (s.setRegRange bs).keyq = s.keyq := rfl
@[simp] theorem State.setRegRange_waiting (s : State) (bs : List Byte) : (s.setRegRange bs).waiting = s.waiting := rfl
@[simp] theorem State.setRegRange_halted (s : State) (bs : List Byte) : (s.setRegRange bs).halted = s.halted := rfl
@[simp] theorem State.setRegRange_params (s : State) (bs : List Byte) : (s.setRegRange bs).params = s.params := rfl
@[simp] theorem State.setRegRange_schedule (s : State) (bs : List Byte) : (s.setRegRange bs).schedule = s.schedule := rfl
@[simp] theorem State.setRegRange_freeCount (s : State) (bs : List Byte) : (s.setRegRange bs).freeCount = s.freeCount := rfl
@[simp] theorem State.setRegRange_outputs (s : State) (bs : List Byte) : (s.setRegRange bs).outputs = s.outputs := rfl
@[simp] theorem State.setRegRange_peek (s : State) (bs : List Byte) (b : Nat) : (s.setRegRange bs).peek b = s.peek b := rfl

/-! ### A register after a register write -/

theorem State.setReg_reg (s : State) (r q : Reg) (v : Byte) : (s.setReg r v).reg q = if q = r then v else s.reg q := by
  by_cases h : q = r
  · subst h; simp [State.reg]
  · have : r.toNat ≠ q.toNat := fun e => h (BitVec.eq_of_toNat_eq e.symm)
    simp [State.reg, h, this]

@[simp] theorem State.setReg_reg_self (s : State) (r : Reg) (v : Byte) : (s.setReg r v).reg r = v := by
  simp [State.setReg_reg]

theorem State.setReg_reg_ne (s : State) (r q : Reg) (v : Byte) (h : q ≠ r) : (s.setReg r v).reg q = s.reg q := by
  simp [State.setReg_reg, h]

/-- A register write changes the registers only. -/
theorem State.setReg_eq (s : State) (r : Reg) (v : Byte) : s.setReg r v = { s with regs := (s.setReg r v).regs } := rfl

/-- A result and its flag change the registers only (R80). -/
theorem State.setRegFlag_eq (s : State) (x : Reg) (v : Byte) (b : Bool) :
    s.setRegFlag x v b = { s with regs := (s.setRegFlag x v b).regs } := by
  unfold State.setRegFlag; split <;> rfl

/-- Each register after a result and its flag were written (R80). -/
theorem State.setRegFlag_reg (s : State) (x q : Reg) (v : Byte) (b : Bool) :
    (s.setRegFlag x v b).reg q =
      match s.params.flagOrder with
      | .flagLast => if q = regF then flagByte b else if q = x then v else s.reg q
      | .resultLast => if q = x then v else if q = regF then flagByte b else s.reg q := by
  unfold State.setRegFlag; split <;> simp [State.setReg_reg, *]

/-- The handler's start state is the fetched state with the turn taken and PC advanced. -/
theorem State.handler_eq (s : State) : s.handler = s.turnTaken.advance := rfl

end Sys2Proof.Machine
end

