-- ==== Sys2Proof/Laws/Agents.lean ====
section
/-!
SUPPORT. Everything the steps of the agents other than the CPU can do (rules R126 to R132).
-/
namespace Sys2Proof.Machine

/-- A delay tick is a decrement that stops at zero (R126). -/
theorem State.tickDelay_eq (s : State) : s.tickDelay = s.setDt (BitVec.ofNat 8 (s.dt.toNat - 1)) := by
  unfold State.tickDelay
  by_cases h : s.dt = 0#8
  · rw [if_pos h]; cases s; simp_all [State.setDt]
  · rw [if_neg h]
    have h0 : s.dt.toNat ≠ 0 := fun e => h (BitVec.eq_of_toNat_eq e)
    have hlt := s.dt.isLt
    refine congrArg s.setDt (BitVec.eq_of_toNat_eq ?_)
    rw [BitVec.toNat_sub]
    simp only [BitVec.toNat_ofNat]
    omega

/-- A sound tick at zero does nothing (R127). -/
theorem State.tickSound_zero (s : State) (h : s.st.toNat = 0) : s.tickSound = s :=
  if_pos (BitVec.eq_of_toNat_eq h)

/-- The sound tick that reaches zero emits `sound_stop` (R129). -/
theorem State.tickSound_one (s : State) (h : s.st.toNat = 1) : s.tickSound = (s.setSt 0#8).emit .soundStop := by
  have e : s.st = 1#8 := BitVec.eq_of_toNat_eq h
  exact (if_neg (by rw [e]; decide)).trans (if_pos e)

/-- Every other sound tick only decrements (R127). -/
theorem State.tickSound_more (s : State) (h : 1 < s.st.toNat) :
    ∃ v : Byte, v.toNat = s.st.toNat - 1 ∧ s.tickSound = s.setSt v := by
  have h0 : s.st ≠ 0#8 := fun e => by rw [e] at h; exact absurd h (by decide)
  have h1 : s.st ≠ 1#8 := fun e => by rw [e] at h; exact absurd h (by decide)
  have hlt := s.st.isLt
  refine ⟨s.st - 1#8, ?_, (if_neg h0).trans (if_neg h1)⟩
  rw [BitVec.toNat_sub]
  simp only [BitVec.toNat_ofNat]
  omega

/-- The output level (R128). -/
theorem State.soundActive_iff (s : State) : s.soundActive = true ↔ 0 < s.st.toNat := by
  unfold State.soundActive; exact decide_eq_true_iff

/-- Whether the queue has room (R132). -/
theorem State.keyRoom_iff (s : State) : s.keyRoom = true ↔ ∀ d, s.params.keyqDepth = some d → s.keyq.length < d := by
  unfold State.keyRoom
  cases h : s.params.keyqDepth <;> simp

/-- A push with room (R132). -/
theorem State.keyPush_room (s : State) (k : Key) (h : s.keyRoom = true) : s.keyPush k = s.setKeyq (s.keyq ++ [k]) :=
  if_pos h

/-- A push without room (log entry 11). -/
theorem State.keyPush_full (s : State) (k : Key) (h : ¬ s.keyRoom = true) : s.keyPush k = s := if_neg h

end Sys2Proof.Machine
end

