-- ==== Sys2Proof/Laws/Decode.lean ====
section
/-!
SUPPORT. The fields of the three word formats (rules R10, R47), and the two bytes of a word (R32).
-/
namespace Sys2Proof

@[simp] theorem formatA_fieldK (k : Nibble) (nnn : Addr) : fieldK (formatA k nnn) = k := by
  unfold formatA fieldK nib; ext i hi; simp; interval_cases i <;> simp

@[simp] theorem formatA_fieldNNN (k : Nibble) (nnn : Addr) : fieldNNN (formatA k nnn) = nnn := by
  unfold formatA fieldNNN nib; ext i hi; simp; interval_cases i <;> simp

@[simp] theorem formatRC_fieldK (k : Nibble) (x : Reg) (nn : Byte) : fieldK (formatRC k x nn) = k := by
  unfold formatRC fieldK nib; ext i hi; simp; interval_cases i <;> simp

@[simp] theorem formatRC_fieldX (k : Nibble) (x : Reg) (nn : Byte) : fieldX (formatRC k x nn) = x := by
  unfold formatRC fieldX nib; ext i hi; simp; interval_cases i <;> simp

@[simp] theorem formatRC_fieldNN (k : Nibble) (x : Reg) (nn : Byte) : fieldNN (formatRC k x nn) = nn := by
  unfold formatRC fieldNN nib; ext i hi; simp; interval_cases i <;> simp

@[simp] theorem formatRRN_fieldK (k : Nibble) (x y : Reg) (n : Nibble) : fieldK (formatRRN k x y n) = k := by
  unfold formatRRN fieldK nib; ext i hi; simp; interval_cases i <;> simp

@[simp] theorem formatRRN_fieldX (k : Nibble) (x y : Reg) (n : Nibble) : fieldX (formatRRN k x y n) = x := by
  unfold formatRRN fieldX nib; ext i hi; simp; interval_cases i <;> simp

@[simp] theorem formatRRN_fieldY (k : Nibble) (x y : Reg) (n : Nibble) : fieldY (formatRRN k x y n) = y := by
  unfold formatRRN fieldY nib; ext i hi; simp; interval_cases i <;> simp

@[simp] theorem formatRRN_fieldN (k : Nibble) (x y : Reg) (n : Nibble) : fieldN (formatRRN k x y n) = n := by
  unfold formatRRN fieldN nib; ext i hi; simp; interval_cases i <;> simp

/-- A word is its key and its 12-bit address. -/
theorem formatA_fields (w : Word) : formatA (fieldK w) (fieldNNN w) = w := by
  unfold formatA fieldK fieldNNN nib; ext i hi; simp; interval_cases i <;> simp

/-- A word is its key, register and low byte. -/
theorem formatRC_fields (w : Word) : formatRC (fieldK w) (fieldX w) (fieldNN w) = w := by
  unfold formatRC fieldK fieldX fieldNN nib; ext i hi; simp; interval_cases i <;> simp

/-- A word is its four nibbles (R8). -/
theorem formatRRN_fields (w : Word) : formatRRN (fieldK w) (fieldX w) (fieldY w) (fieldN w) = w := by
  unfold formatRRN fieldK fieldX fieldY fieldN nib; ext i hi; simp; interval_cases i <;> simp

/-- The bytes of a word, put together big-endian, are the word. -/
@[simp] theorem bigEndian_bytes (w : Word) : bigEndian (highByte w) (lowByte w) = w := by
  unfold bigEndian highByte lowByte; ext i hi; simp; interval_cases i <;> simp

@[simp] theorem highByte_bigEndian (hi lo : Byte) : highByte (bigEndian hi lo) = hi := by
  unfold bigEndian highByte; ext i h; simp; interval_cases i <;> simp

@[simp] theorem lowByte_bigEndian (hi lo : Byte) : lowByte (bigEndian hi lo) = lo := by
  unfold bigEndian lowByte; ext i h; simp; interval_cases i <;> simp

/-- The key of a word is the key of any part of it that keeps bits 15..12. -/
theorem fieldK_and (w m : Word) (h : fieldK m = 0xF#4) : fieldK (w &&& m) = fieldK w := by
  have e : fieldK (w &&& m) = fieldK w &&& fieldK m := by
    unfold fieldK nib; ext i hi; simp
  rw [e, h]; exact BitVec.and_allOnes

/-- The low nibble of a word is that of any part of it that keeps bits 3..0. -/
theorem fieldN_and (w m : Word) (h : fieldN m = 0xF#4) : fieldN (w &&& m) = fieldN w := by
  have e : fieldN (w &&& m) = fieldN w &&& fieldN m := by
    unfold fieldN nib; ext i hi; simp
  rw [e, h]; exact BitVec.and_allOnes

/-- The low byte of a word is that of any part of it that keeps bits 7..0. -/
theorem fieldNN_and (w m : Word) (h : fieldNN m = 0xFF#8) : fieldNN (w &&& m) = fieldNN w := by
  have e : fieldNN (w &&& m) = fieldNN w &&& fieldNN m := by
    unfold fieldNN nib; ext i hi; simp
  rw [e, h]; exact BitVec.and_allOnes

end Sys2Proof
end

