-- ==== Sys2Proof/Laws/Memory.lean ====
section
/-!
SUPPORT. Memory: what a write does to every read (rule R33), that every memory operation keeps the canonical form, and
what the block transfers answer (R98, R99).
-/
namespace Sys2Proof.Machine

/-! ### Reset contents -/

/-- The font's byte `k` stands at `FONT_BASE + k` (R27, R144). -/
theorem Memory.initialByte_font (p : Params) (k : Nat) (h : k < 80) :
    Memory.initialByte p (p.fontBase + k) = p.font.getD k 0#8 := by
  unfold Memory.initialByte Config.fontSize
  rw [if_pos (by omega), Nat.add_sub_cancel_left]

/-- Every other byte is 0 (R38, R143). -/
theorem Memory.initialByte_other (p : Params) (a : Nat) (h : a < p.fontBase ∨ p.fontBase + 80 ≤ a) :
    Memory.initialByte p a = 0#8 := by
  unfold Memory.initialByte Config.fontSize
  exact if_neg (by omega)

@[simp] theorem State.created_peek (p : Params) (a : Nat) : (State.created p).peek a = Memory.initialByte p a := rfl

/-! ### One byte -/

theorem Memory.find_erase (a b : Nat) (m : Memory) :
    Memory.find (Memory.erase a m) b = if b = a then none else Memory.find m b := by
  induction m with
  | nil => simp [Memory.erase, Memory.find]
  | cons c rest ih =>
    obtain ⟨k, u⟩ := c
    by_cases hk : a = k
    · subst hk
      rw [Memory.erase, if_pos rfl, ih]
      by_cases hb : b = a <;> simp [Memory.find, hb]
    · by_cases hb : b = k
      · subst hb; simp [Memory.erase, Memory.find, hk, Ne.symm hk]
      · simp [Memory.erase, Memory.find, ih, hk, hb]

theorem Memory.find_insert (a b : Nat) (v : Byte) (m : Memory) (h : Memory.find m a = none) :
    Memory.find (Memory.insert a v m) b = if b = a then some v else Memory.find m b := by
  induction m with
  | nil => simp [Memory.insert, Memory.find]
  | cons c rest ih =>
    obtain ⟨k, u⟩ := c
    have hak : a ≠ k := by rintro rfl; simp [Memory.find] at h
    have hr : Memory.find rest a = none := by simpa [Memory.find, hak] using h
    by_cases hlt : a < k
    · simp [Memory.insert, Memory.find, hlt]
    · by_cases hb : b = k
      · subst hb; simp [Memory.insert, Memory.find, hlt, Ne.symm hak]
      · simp [Memory.insert, Memory.find, hlt, hb, ih hr]

/-- A byte after a write: the one written at its address, every other as before. -/
theorem Memory.read_write (p : Params) (m : Memory) (a b : Nat) (v : Byte) :
    Memory.read p (Memory.write p m a v) b = if b = a then v else Memory.read p m b := by
  unfold Memory.read Memory.write
  by_cases hv : v = Memory.initialByte p a
  · by_cases hb : b = a <;> simp [hv, hb, Memory.find_erase]
  · have := Memory.find_insert a b v (Memory.erase a m) (by simp [Memory.find_erase])
    rw [if_neg hv, this]
    by_cases hb : b = a <;> simp [hb, Memory.find_erase]

theorem State.poke_peek (s : State) (a b : Nat) (v : Byte) :
    (s.poke a v).peek b = if b = a then v else s.peek b := Memory.read_write s.params s.mem a b v

/-! ### The canonical form -/

theorem Memory.wfFrom_mono (p : Params) {lo hi : Nat} (h : lo ≤ hi) (m : Memory) (w : Memory.wfFrom p hi m = true) :
    Memory.wfFrom p lo m = true := by
  cases m with
  | nil => rfl
  | cons c rest =>
    obtain ⟨k, u⟩ := c
    simp only [Memory.wfFrom, Bool.and_eq_true, decide_eq_true_eq] at w ⊢
    exact ⟨⟨⟨by omega, w.1.1.2⟩, w.1.2⟩, w.2⟩

theorem Memory.wfFrom_erase (p : Params) (a : Nat) (m : Memory) (lo : Nat) (w : Memory.wfFrom p lo m = true) :
    Memory.wfFrom p lo (Memory.erase a m) = true := by
  induction m generalizing lo with
  | nil => rfl
  | cons c rest ih =>
    obtain ⟨k, u⟩ := c
    simp only [Memory.wfFrom, Bool.and_eq_true, decide_eq_true_eq] at w
    by_cases hk : a = k
    · simp only [Memory.erase, if_pos hk]
      exact Memory.wfFrom_mono p (by omega) _ (ih (k + 1) w.2)
    · simp only [Memory.erase, if_neg hk, Memory.wfFrom, Bool.and_eq_true, decide_eq_true_eq]
      exact ⟨w.1, ih (k + 1) w.2⟩

theorem Memory.wfFrom_insert (p : Params) (a : Nat) (v : Byte) (ha : a ≤ 0xFFF) (hv : v ≠ Memory.initialByte p a)
    (m : Memory) (hf : Memory.find m a = none) (lo : Nat) (hlo : lo ≤ a) (w : Memory.wfFrom p lo m = true) :
    Memory.wfFrom p lo (Memory.insert a v m) = true := by
  induction m generalizing lo with
  | nil => simp [Memory.insert, Memory.wfFrom, hlo, hv, ha, Config.lastAddr]
  | cons c rest ih =>
    obtain ⟨k, u⟩ := c
    have hak : a ≠ k := by rintro rfl; simp [Memory.find] at hf
    have hr : Memory.find rest a = none := by simpa [Memory.find, hak] using hf
    simp only [Memory.wfFrom, Bool.and_eq_true, decide_eq_true_eq] at w
    by_cases hlt : a < k
    · simp only [Memory.insert, if_pos hlt, Memory.wfFrom, Bool.and_eq_true, decide_eq_true_eq]
      exact ⟨⟨⟨hlo, ha⟩, hv⟩, ⟨⟨by omega, w.1.1.2⟩, w.1.2⟩, w.2⟩
    · simp only [Memory.insert, if_neg hlt, Memory.wfFrom, Bool.and_eq_true, decide_eq_true_eq]
      exact ⟨w.1, ih hr (k + 1) (by omega) w.2⟩

/-- A write inside memory keeps the canonical form. -/
theorem Memory.write_wf (p : Params) (m : Memory) (a : Nat) (v : Byte) (ha : a ≤ 0xFFF) (w : Memory.wf p m = true) :
    Memory.wf p (Memory.write p m a v) = true := by
  unfold Memory.write
  split
  · exact Memory.wfFrom_erase p a m 0 w
  · exact Memory.wfFrom_insert p a v ha ‹_› _ (by simp [Memory.find_erase]) 0 (Nat.zero_le _)
      (Memory.wfFrom_erase p a m 0 w)

theorem State.poke_wf (s : State) (a : Nat) (v : Byte) (ha : a ≤ 0xFFF) (w : Memory.wf s.params s.mem = true) :
    Memory.wf (s.poke a v).params (s.poke a v).mem = true := Memory.write_wf s.params s.mem a v ha w

/-- Reset memory lists nothing. -/
theorem reset_mem_wf : Memory.wf State.reset.params State.reset.mem = true := by decide

/-! ### Checked accesses -/

theorem State.memRead_inside (s : State) {a : Nat} (h : a ≤ 0xFFF) : s.memRead a = .ok (s.peek a) :=
  if_neg (by unfold Config.lastAddr; omega)

theorem State.memRead_outside (s : State) {a : Nat} (h : 0xFFF < a) :
    s.memRead a = .error (.boundsError (.memRead a)) := if_pos h

theorem State.memWrite_inside (s : State) {a : Nat} (v : Byte) (h : a ≤ 0xFFF) : s.memWrite a v = .ok (s.poke a v) :=
  if_neg (by unfold Config.lastAddr; omega)

theorem State.memWrite_outside (s : State) {a : Nat} (v : Byte) (h : 0xFFF < a) :
    s.memWrite a v = .error (.boundsError (.memWrite a)) := if_pos h

/-! ### Block transfers -/

/-- What a block store answers: all the bytes stored, or the error at its first address above 0xFFF. -/
theorem State.writeBlock_spec (bs : List Byte) (s : State) (a : Nat) :
    (bs = [] ∨ a + bs.length ≤ 0x1000 →
      ∃ t, s.writeBlock a bs = .ok t ∧ t = { s with mem := t.mem } ∧
        (∀ b, t.peek b = if a ≤ b ∧ b < a + bs.length then bs.getD (b - a) 0#8 else s.peek b) ∧
        (Memory.wf s.params s.mem = true → Memory.wf t.params t.mem = true)) ∧
    (bs ≠ [] → 0x1000 < a + bs.length →
      s.writeBlock a bs = .error (.boundsError (.memWrite (max a 0x1000)))) := by
  induction bs generalizing s a with
  | nil =>
    refine ⟨fun _ => ⟨s, rfl, rfl, fun b => ?_, id⟩, fun h => absurd rfl h⟩
    rw [if_neg]; simp
  | cons v bs ih =>
    simp only [State.writeBlock, List.length_cons]
    constructor
    · rintro (h | h)
      · cases h
      · rw [State.memWrite_inside s v (by omega)]
        obtain ⟨t, h1, h2, h3, h4⟩ := (ih (s.poke a v) (a + 1)).1 (Or.inr (by omega))
        refine ⟨t, h1, by rw [h2]; simp [State.poke], fun b => ?_, fun w => h4 (s.poke_wf a v (by omega) w)⟩
        rw [h3, State.poke_peek]
        by_cases hb : b = a
        · subst hb
          rw [if_neg (by omega), if_pos rfl, if_pos (by omega)]; simp
        · by_cases hin : a + 1 ≤ b ∧ b < a + 1 + bs.length
          · rw [if_pos hin, if_pos (by omega)]
            obtain ⟨k, rfl⟩ : ∃ k, b = a + 1 + k := ⟨b - (a + 1), by omega⟩
            have e1 : a + 1 + k - (a + 1) = k := by omega
            have e2 : a + 1 + k - a = k + 1 := by omega
            rw [e1, e2]; simp
          · rw [if_neg hin, if_neg hb, if_neg (by omega)]
    · intro _ h
      by_cases ha : 0xFFF < a
      · rw [State.memWrite_outside s v ha, Nat.max_eq_left (by omega)]
      · rw [State.memWrite_inside s v (by omega)]
        have hne : bs ≠ [] := by rintro rfl; simp at h; omega
        have := (ih (s.poke a v) (a + 1)).2 hne (by omega)
        rw [Nat.max_eq_right (by omega)] at this ⊢
        exact this

/-- A block store neither reads nor writes the delay timer. -/
theorem State.writeBlock_setDt (v : Byte) (bs : List Byte) (s : State) (a : Nat) :
    (s.setDt v).writeBlock a bs = (s.writeBlock a bs).map (State.setDt · v) := by
  induction bs generalizing s a with
  | nil => rfl
  | cons b bs ih =>
    simp only [State.writeBlock]
    by_cases ha : 0xFFF < a
    · rw [State.memWrite_outside _ b ha, State.memWrite_outside _ b ha]; rfl
    · rw [State.memWrite_inside _ b (by omega), State.memWrite_inside _ b (by omega)]
      exact ih (s.poke a b) (a + 1)

/-- The loader's size check (R145). -/
theorem imageFits_iff (image : List Byte) : imageFits image = true ↔ image.length ≤ 3584 := decide_eq_true_iff

/-- What a block load answers: the bytes read, or the error at its first address above 0xFFF. -/
theorem State.readBlock_spec (n : Nat) (s : State) (a : Nat) :
    (n = 0 ∨ a + n ≤ 0x1000 → s.readBlock a n = .ok ((List.range n).map fun k => s.peek (a + k))) ∧
    (n ≠ 0 → 0x1000 < a + n → s.readBlock a n = .error (.boundsError (.memRead (max a 0x1000)))) := by
  induction n generalizing a with
  | zero => exact ⟨fun _ => rfl, fun h => absurd rfl h⟩
  | succ n ih =>
    simp only [State.readBlock]
    constructor
    · rintro (h | h)
      · cases h
      · rw [State.memRead_inside s (by omega)]
        simp only [(ih (a + 1)).1 (by omega), List.range_succ_eq_map, List.map_cons, List.map_map]
        congr 2
        exact List.map_congr_left fun k _ => by simp [Nat.add_assoc, Nat.add_comm 1]
    · intro _ h
      by_cases ha : 0xFFF < a
      · rw [State.memRead_outside s ha, Nat.max_eq_left (by omega)]
      · rw [State.memRead_inside s (by omega)]
        simp only [(ih (a + 1)).2 (by omega) (by omega)]
        rw [Nat.max_eq_right (by omega), Nat.max_eq_right (by omega)]

/-- The registers after a run of register writes. -/
theorem writeRegs_getElem (bs : List Byte) (k : Nat) (r : Vector Byte 16) (j : Nat) (hj : j < 16) :
    (writeRegs k bs r)[j] = if k ≤ j ∧ j < k + bs.length then bs.getD (j - k) 0#8 else r[j] := by
  induction bs generalizing k r with
  | nil => rw [if_neg (by simp)]; rfl
  | cons b bs ih =>
    rw [writeRegs, ih, Vector.getElem_setIfInBounds, List.length_cons]
    by_cases hk : k = j
    · subst hk
      rw [if_neg (by omega), if_pos rfl, if_pos (by omega)]; simp
    · by_cases hin : k + 1 ≤ j ∧ j < k + 1 + bs.length
      · rw [if_pos hin, if_pos (by omega)]
        obtain ⟨i, rfl⟩ : ∃ i, j = k + 1 + i := ⟨j - (k + 1), by omega⟩
        have e1 : k + 1 + i - (k + 1) = i := by omega
        have e2 : k + 1 + i - k = i + 1 := by omega
        rw [e1, e2]; simp
      · rw [if_neg hin, if_neg hk, if_neg (by omega)]

/-- A register after a block of register writes from `V0` on. -/
theorem State.setRegRange_reg (s : State) (bs : List Byte) (q : Reg) :
    (s.setRegRange bs).reg q = if q.toNat < bs.length then bs.getD q.toNat 0#8 else s.reg q := by
  have := writeRegs_getElem bs 0 s.regs q.toNat q.isLt
  simpa [State.reg, State.setRegRange] using this

/-- `V0..VX` are `X + 1` bytes. -/
@[simp] theorem State.regRange_length (s : State) (x : Reg) : (s.regRange x).length = x.toNat + 1 := by
  have := x.isLt
  simp [State.regRange]; omega

/-- The byte of the block `V0..VX` at place `k`. -/
theorem State.regRange_getD (s : State) (x q : Reg) (h : q.toNat ≤ x.toNat) :
    (s.regRange x).getD q.toNat 0#8 = s.reg q := by
  have hq := q.isLt
  simp [State.regRange, State.reg, List.getD_eq_getElem?_getD, Nat.lt_succ_of_le h, hq]

@[simp] theorem decimalDigits_length (v : Byte) : (decimalDigits v).length = 3 := rfl

/-! ### Fetch -/

/-- The fetch: the two bytes at PC, or a bounds error. -/
theorem State.fetchWord_spec (s : State) :
    (s.pc.toNat ≤ 0xFFE → s.fetchWord = .ok (bigEndian (s.peek s.pc.toNat) (s.peek (s.pc.toNat + 1)))) ∧
    (0xFFE < s.pc.toNat → s.fetchWord = .error (.boundsError (.fetch s.pc.toNat))) := by
  unfold State.fetchWord
  refine ⟨fun h => if_neg ?_, fun h => if_pos ?_⟩ <;> simp only [Config.lastAddr] <;> omega

theorem bigEndian_toNat (hi lo : Byte) : (bigEndian hi lo).toNat = hi.toNat * 256 + lo.toNat := by
  have h1 := hi.isLt
  have h2 := lo.isLt
  have e : hi.toNat * 256 = hi.toNat <<< 8 := by rw [Nat.shiftLeft_eq]
  have h3 : (hi.setWidth 16 <<< 8 : Word).toNat = hi.toNat <<< 8 := by
    simp only [BitVec.toNat_shiftLeft, BitVec.toNat_setWidth, Nat.shiftLeft_eq]; omega
  have h4 : (lo.setWidth 16 : Word).toNat = lo.toNat := by simp only [BitVec.toNat_setWidth]; omega
  rw [bigEndian, BitVec.toNat_or, h3, h4, e, Nat.shiftLeft_add_eq_or_of_lt h2]

end Sys2Proof.Machine
end

