-- ==== Sys2Proof/Laws/Display.lean ====
section
/-!
SUPPORT. What drawing a sprite does to every pixel and to the collision flag (rules R105, R106, R108).
-/
namespace Sys2Proof.Machine

@[simp] theorem Framebuffer.clear_pixel (x y : Nat) : Framebuffer.pixel Framebuffer.clear x y = false := by
  simp [Framebuffer.pixel, Framebuffer.clear]

/-- Two framebuffers with the same 2048 pixels are the same. -/
theorem Framebuffer.ext_pixel {f g : Framebuffer}
    (h : ∀ x y, x < 64 → y < 32 → Framebuffer.pixel f x y = Framebuffer.pixel g x y) : f = g := by
  apply Vector.ext; intro y hy
  apply Vector.ext; intro x hx
  have := h x y hx hy
  simpa [Framebuffer.pixel, Nat.mod_eq_of_lt hx, Nat.mod_eq_of_lt hy] using this

/-- Coordinates wrap (R108(a)). -/
theorem Framebuffer.pixel_congr (f : Framebuffer) {x y u v : Nat} (hx : x % 64 = u % 64) (hy : y % 32 = v % 32) :
    Framebuffer.pixel f x y = Framebuffer.pixel f u v := by
  simp [Framebuffer.pixel, hx, hy]

/-- A toggle changes its own pixel and no other. -/
theorem Framebuffer.toggle_pixel (f : Framebuffer) (x y u v : Nat) :
    Framebuffer.pixel (Framebuffer.toggle f x y) u v =
      if u % 64 = x % 64 ∧ v % 32 = y % 32 then !Framebuffer.pixel f x y else Framebuffer.pixel f u v := by
  by_cases hv : v % 32 = y % 32
  · by_cases hu : u % 64 = x % 64
    · simp [Framebuffer.toggle, Framebuffer.pixel, hu, hv]
    · simp [Framebuffer.toggle, Framebuffer.pixel, hu, hv, Ne.symm hu]
  · simp [Framebuffer.toggle, Framebuffer.pixel, hv, Ne.symm hv]

/-- Whether columns `c` to `c + n - 1` of one sprite row hold a set bit on the pixel `(u, v)`. -/
def rowCovers (b : Byte) (x0 y c n u v : Nat) : Prop :=
  ∃ k, c ≤ k ∧ k < c + n ∧ b.getMsbD k = true ∧ u % 64 = (x0 + k) % 64 ∧ v % 32 = y % 32

/-- Whether the rows of a sprite, the first drawn at row `y`, hold a set bit on the pixel `(u, v)`. -/
def rowsCover (bs : List Byte) (x0 y u v : Nat) : Prop :=
  ∃ r, r < bs.length ∧ rowCovers (bs.getD r 0#8) x0 (y + r) 0 8 u v

theorem rowCovers_zero (b : Byte) (x0 y c u v : Nat) : ¬ rowCovers b x0 y c 0 u v := by
  rintro ⟨k, h1, h2, -⟩; omega

theorem rowCovers_succ (b : Byte) (x0 y c n u v : Nat) :
    rowCovers b x0 y c (n + 1) u v ↔
      (b.getMsbD c = true ∧ u % 64 = (x0 + c) % 64 ∧ v % 32 = y % 32) ∨ rowCovers b x0 y (c + 1) n u v := by
  constructor
  · rintro ⟨k, h1, h2, h3⟩
    by_cases hk : k = c
    · subst hk; exact .inl h3
    · exact .inr ⟨k, by omega, by omega, h3⟩
  · rintro (h | ⟨k, h1, h2, h3⟩)
    · exact ⟨c, by omega, by omega, h⟩
    · exact ⟨k, by omega, by omega, h3⟩

theorem rowsCover_nil (x0 y u v : Nat) : ¬ rowsCover [] x0 y u v := by
  rintro ⟨r, h, -⟩; simp at h

theorem rowsCover_cons (b : Byte) (bs : List Byte) (x0 y u v : Nat) :
    rowsCover (b :: bs) x0 y u v ↔ rowCovers b x0 y 0 8 u v ∨ rowsCover bs x0 (y + 1) u v := by
  constructor
  · rintro ⟨r, h1, h2⟩
    cases r with
    | zero => exact .inl (by simpa using h2)
    | succ r =>
      refine .inr ⟨r, by simpa using h1, ?_⟩
      have e : y + (r + 1) = y + 1 + r := by omega
      rw [e] at h2
      simpa using h2
  · rintro (h | ⟨r, h1, h2⟩)
    · exact ⟨0, by simp, by simpa using h⟩
    · refine ⟨r + 1, by simpa using h1, ?_⟩
      have e : y + (r + 1) = y + 1 + r := by omega
      rw [e]
      simpa using h2

/-- One row: each covered pixel is toggled, and only those (8 columns never meet one pixel twice, R108(e)). -/
theorem drawRow_pixel (b : Byte) (x0 y : Nat) (n c : Nat) (d : Framebuffer × Bool) (hn : n ≤ 8) (u v : Nat) :
    (rowCovers b x0 y c n u v →
      Framebuffer.pixel (drawRow b x0 y c n d).1 u v = !Framebuffer.pixel d.1 u v) ∧
    (¬ rowCovers b x0 y c n u v →
      Framebuffer.pixel (drawRow b x0 y c n d).1 u v = Framebuffer.pixel d.1 u v) := by
  induction n generalizing c d with
  | zero => exact ⟨fun h => absurd h (rowCovers_zero _ _ _ _ _ _), fun _ => rfl⟩
  | succ n ih =>
    rw [drawRow]
    obtain ⟨ih1, ih2⟩ := ih (c + 1) (if b.getMsbD c then plot (x0 + c) y d else d) (by omega)
    by_cases hbit : b.getMsbD c = true
    · simp only [hbit, if_true, plot, Framebuffer.toggle_pixel] at ih1 ih2 ⊢
      by_cases hp : u % 64 = (x0 + c) % 64 ∧ v % 32 = y % 32
      · have hno : ¬ rowCovers b x0 y (c + 1) n u v := by
          rintro ⟨k, h1, h2, -, h3, -⟩
          have := hp.1; omega
        refine ⟨fun _ => ?_, fun h => absurd ((rowCovers_succ ..).2 (.inl ⟨hbit, hp⟩)) h⟩
        rw [ih2 hno, if_pos hp, Framebuffer.pixel_congr d.1 hp.1 hp.2]
      · rw [if_neg hp] at ih1 ih2
        refine ⟨fun h => ih1 (((rowCovers_succ ..).1 h).resolve_left fun h' => hp h'.2), fun h => ih2 fun h' => h ((rowCovers_succ ..).2 (.inr h'))⟩
    · simp only [hbit] at ih1 ih2 ⊢
      refine ⟨fun h => ih1 (((rowCovers_succ ..).1 h).resolve_left fun h' => hbit h'.1), fun h => ih2 fun h' => h ((rowCovers_succ ..).2 (.inr h'))⟩

/-- One row: the collision is set if a covered pixel was set. -/
theorem drawRow_hit (b : Byte) (x0 y : Nat) (n c : Nat) (d : Framebuffer × Bool) (hn : n ≤ 8) :
    (drawRow b x0 y c n d).2 = true ↔
      d.2 = true ∨ ∃ u v, rowCovers b x0 y c n u v ∧ Framebuffer.pixel d.1 u v = true := by
  induction n generalizing c d with
  | zero => exact ⟨.inl, fun h => h.resolve_right fun ⟨u, v, h, _⟩ => rowCovers_zero _ _ _ _ _ _ h⟩
  | succ n ih =>
    rw [drawRow, ih (c + 1) _ (by omega)]
    by_cases hbit : b.getMsbD c = true
    · simp only [hbit, if_true, plot, Bool.or_eq_true]
      constructor
      · rintro ((h | h) | ⟨u, v, h1, h2⟩)
        · exact .inl h
        · exact .inr ⟨x0 + c, y, (rowCovers_succ ..).2 (.inl ⟨hbit, rfl, rfl⟩), h⟩
        · refine .inr ⟨u, v, (rowCovers_succ ..).2 (.inr h1), ?_⟩
          rw [Framebuffer.toggle_pixel, if_neg] at h2
          · exact h2
          · obtain ⟨k, k1, k2, -, k3, -⟩ := h1
            rintro ⟨h3, -⟩; omega
      · rintro (h | ⟨u, v, h1, h2⟩)
        · exact .inl (.inl h)
        · rcases (rowCovers_succ ..).1 h1 with h | h
          · exact .inl (.inr (by rw [← Framebuffer.pixel_congr d.1 h.2.1 h.2.2]; exact h2))
          · refine .inr ⟨u, v, h, ?_⟩
            rw [Framebuffer.toggle_pixel, if_neg]
            · exact h2
            · obtain ⟨k, k1, k2, -, k3, -⟩ := h
              rintro ⟨h3, -⟩; omega
    · simp only [hbit]
      constructor
      · rintro (h | ⟨u, v, h1, h2⟩)
        · exact .inl h
        · exact .inr ⟨u, v, (rowCovers_succ ..).2 (.inr h1), h2⟩
      · rintro (h | ⟨u, v, h1, h2⟩)
        · exact .inl h
        · exact .inr ⟨u, v, ((rowCovers_succ ..).1 h1).resolve_left fun h => hbit h.1, h2⟩

/-- A row and the rows below it never meet on one pixel (at most 15 rows, R108(e)). -/
theorem rowCovers_not_rowsCover (b : Byte) (bs : List Byte) (x0 y u v : Nat) (hn : bs.length < 32)
    (h : rowCovers b x0 y 0 8 u v) : ¬ rowsCover bs x0 (y + 1) u v := by
  obtain ⟨_, _, _, _, _, h1⟩ := h
  rintro ⟨r, hr, _, _, _, _, _, h2⟩
  omega

/-- A sprite: each covered pixel is toggled, and only those. -/
theorem drawRows_pixel (bs : List Byte) (x0 y : Nat) (d : Framebuffer × Bool) (hn : bs.length ≤ 32) (u v : Nat) :
    (rowsCover bs x0 y u v → Framebuffer.pixel (drawRows bs x0 y d).1 u v = !Framebuffer.pixel d.1 u v) ∧
    (¬ rowsCover bs x0 y u v → Framebuffer.pixel (drawRows bs x0 y d).1 u v = Framebuffer.pixel d.1 u v) := by
  induction bs generalizing y d with
  | nil => exact ⟨fun h => absurd h (rowsCover_nil _ _ _ _), fun _ => rfl⟩
  | cons b bs ih =>
    rw [drawRows]
    rw [List.length_cons] at hn
    obtain ⟨ih1, ih2⟩ := ih (y + 1) (drawRow b x0 y 0 8 d) (by omega)
    obtain ⟨r1, r2⟩ := drawRow_pixel b x0 y 8 0 d (by omega) u v
    by_cases hrow : rowCovers b x0 y 0 8 u v
    · have hno := rowCovers_not_rowsCover b bs x0 y u v (by omega) hrow
      exact ⟨fun _ => by rw [ih2 hno, r1 hrow], fun h => absurd ((rowsCover_cons ..).2 (.inl hrow)) h⟩
    · refine ⟨fun h => ?_, fun h => ?_⟩
      · rw [ih1 (((rowsCover_cons ..).1 h).resolve_left hrow), r2 hrow]
      · rw [ih2 fun h' => h ((rowsCover_cons ..).2 (.inr h')), r2 hrow]

/-- A sprite: the collision is set if and only if a covered pixel was set. -/
theorem drawRows_hit (bs : List Byte) (x0 y : Nat) (d : Framebuffer × Bool) (hn : bs.length ≤ 32) :
    (drawRows bs x0 y d).2 = true ↔
      d.2 = true ∨ ∃ u v, rowsCover bs x0 y u v ∧ Framebuffer.pixel d.1 u v = true := by
  induction bs generalizing y d with
  | nil => exact ⟨.inl, fun h => h.resolve_right fun ⟨u, v, h, _⟩ => rowsCover_nil _ _ _ _ h⟩
  | cons b bs ih =>
    rw [List.length_cons] at hn
    rw [drawRows, ih (y + 1) _ (by omega), drawRow_hit b x0 y 8 0 d (by omega)]
    have same : ∀ u v, rowsCover bs x0 (y + 1) u v →
        Framebuffer.pixel (drawRow b x0 y 0 8 d).1 u v = Framebuffer.pixel d.1 u v := fun u v h =>
      (drawRow_pixel b x0 y 8 0 d (by omega) u v).2 fun h' => rowCovers_not_rowsCover b bs x0 y u v (by omega) h' h
    constructor
    · rintro ((h | ⟨u, v, h1, h2⟩) | ⟨u, v, h1, h2⟩)
      · exact .inl h
      · exact .inr ⟨u, v, (rowsCover_cons ..).2 (.inl h1), h2⟩
      · exact .inr ⟨u, v, (rowsCover_cons ..).2 (.inr h1), by rw [← same u v h1]; exact h2⟩
    · rintro (h | ⟨u, v, h1, h2⟩)
      · exact .inl (.inl h)
      · rcases (rowsCover_cons ..).1 h1 with h | h
        · exact .inl (.inr ⟨u, v, h, h2⟩)
        · exact .inr ⟨u, v, h, by rw [same u v h]; exact h2⟩

/-- The statements' `covers` is `rowsCover` on coordinates inside the grid. -/
theorem covers_iff (bs : List Byte) (x0 y0 u v : Nat) (hu : u < 64) (hv : v < 32) :
    covers bs x0 y0 u v ↔ rowsCover bs x0 y0 u v := by
  have msb : ∀ (b : Byte) (c : Nat), c < 8 → b.getMsbD c = b.getLsbD (7 - c) := fun b c hc => by
    simp [BitVec.getMsbD, hc]
  constructor
  · rintro ⟨r, c, h1, h2, h3, h4, h5⟩
    exact ⟨r, h1, c, by omega, by omega, by rw [msb _ _ h2]; exact h3, by omega, by omega⟩
  · rintro ⟨r, h1, c, -, h2, h3, h4, h5⟩
    exact ⟨r, c, h1, by omega, by rw [← msb _ _ (by omega)]; exact h3, by omega, by omega⟩

end Sys2Proof.Machine
end

