-- ==== Sys2Proof/Laws/Fatal.lean ====
section
/-!
SUPPORT. What an interrupted transfer can leave behind, whatever its free values are (rules R99, R122(d)), and that it
keeps memory's canonical form.
-/
namespace Sys2Proof.Machine

/-- The bytes a faulting read handles are bytes of memory from its start on. -/
theorem State.readableBytes_spec (s : State) (n a : Nat) :
    (s.readableBytes a n).length ≤ n ∧
    ∀ k, k < (s.readableBytes a n).length → a + k ≤ 0xFFF ∧ (s.readableBytes a n).getD k 0#8 = s.peek (a + k) := by
  induction n generalizing a with
  | zero => exact ⟨Nat.le_refl 0, fun k h => absurd h (Nat.not_lt_zero k)⟩
  | succ n ih =>
    unfold State.readableBytes
    by_cases ha : Config.lastAddr < a
    · rw [if_pos ha]; exact ⟨Nat.zero_le _, fun k h => absurd h (Nat.not_lt_zero k)⟩
    · rw [if_neg ha]
      obtain ⟨h1, h2⟩ := ih (a + 1)
      refine ⟨by simpa using h1, fun k hk => ?_⟩
      cases k with
      | zero => exact ⟨by unfold Config.lastAddr at ha; omega, by simp⟩
      | succ k =>
        obtain ⟨h3, h4⟩ := h2 k (by simpa using hk)
        exact ⟨by omega, by rw [List.getD_cons_succ, h4]; congr 1; omega⟩

/-- A faulting store changes each byte to the one it was to hold or not at all, and keeps the canonical form. -/
theorem Memory.storeSome_spec (done : Nat → Bool) (p : Params) (bs : List Byte) (k a : Nat) (m : Memory) :
    (∀ b, Memory.read p (Memory.storeSome done p k a bs m) b = Memory.read p m b ∨
      (a ≤ b ∧ b ≤ 0xFFF ∧ b < a + bs.length ∧
        Memory.read p (Memory.storeSome done p k a bs m) b = bs.getD (b - a) 0#8)) ∧
    (Memory.wf p m = true → Memory.wf p (Memory.storeSome done p k a bs m) = true) := by
  induction bs generalizing k a m with
  | nil => exact ⟨fun _ => .inl rfl, id⟩
  | cons v bs ih =>
    rw [Memory.storeSome]
    have shift : ∀ (m' : Memory) (b : Nat), a + 1 ≤ b ∧ b ≤ 0xFFF ∧ b < a + 1 + bs.length ∧
        Memory.read p (Memory.storeSome done p (k + 1) (a + 1) bs m') b = bs.getD (b - (a + 1)) 0#8 →
        a ≤ b ∧ b ≤ 0xFFF ∧ b < a + (v :: bs).length ∧
        Memory.read p (Memory.storeSome done p (k + 1) (a + 1) bs m') b = (v :: bs).getD (b - a) 0#8 := by
      rintro m' b ⟨g1, g2, g3, g4⟩
      obtain ⟨j, rfl⟩ : ∃ j, b = a + 1 + j := ⟨b - (a + 1), by omega⟩
      refine ⟨by omega, g2, by rw [List.length_cons]; omega, ?_⟩
      rw [g4, show a + 1 + j - (a + 1) = j by omega, show a + 1 + j - a = j + 1 by omega, List.getD_cons_succ]
    by_cases hc : (done k && decide (a ≤ Config.lastAddr)) = true
    · have ha : a ≤ 0xFFF := by simp only [Bool.and_eq_true, decide_eq_true_eq] at hc; exact hc.2
      rw [if_pos hc]
      obtain ⟨h2, h3⟩ := ih (k + 1) (a + 1) (Memory.write p m a v)
      refine ⟨fun b => ?_, fun w => h3 (Memory.write_wf p m a v ha w)⟩
      rcases h2 b with h | h
      · by_cases hb : b = a
        · subst hb
          exact .inr ⟨Nat.le_refl _, ha, by simp, by rw [h, Memory.read_write, if_pos rfl]; simp⟩
        · exact .inl (by rw [h, Memory.read_write, if_neg hb])
      · exact .inr (shift _ b h)
    · rw [if_neg hc]
      obtain ⟨h2, h3⟩ := ih (k + 1) (a + 1) m
      exact ⟨fun b => (h2 b).imp_right (shift _ b), h3⟩

/-- `VF` after a faulting DRW is untouched, 0 or 1, and no other register changes. -/
theorem flagSome_getElem (done : Nat → Bool) (r : Vector Byte 16) (j : Nat) (hj : j < 16) :
    (flagSome done r)[j] = r[j] ∨ (j = 15 ∧ ((flagSome done r)[j] = 0#8 ∨ (flagSome done r)[j] = 1#8)) := by
  unfold flagSome
  by_cases hd : done 256 = true
  · rw [if_pos hd]
    by_cases hj' : j = 15
    · subst hj'
      refine .inr ⟨rfl, ?_⟩
      cases done 257 <;> simp [flagByte]
    · exact .inl (Vector.getElem_set_ne _ _ (by simpa using Ne.symm hj'))
  · rw [if_neg hd]; exact .inl rfl

/-- A faulting load changes each register to the byte it was to hold or not at all. -/
theorem loadSome_getElem (done : Nat → Bool) (bs : List Byte) (k : Nat) (r : Vector Byte 16) (j : Nat) (hj : j < 16) :
    (loadSome done k bs r)[j] = r[j] ∨
      (k ≤ j ∧ j < k + bs.length ∧ (loadSome done k bs r)[j] = bs.getD (j - k) 0#8) := by
  induction bs generalizing k r with
  | nil => exact .inl rfl
  | cons v bs ih =>
    rw [loadSome]
    rcases ih (k + 1) (if done k then r.setIfInBounds k v else r) with h | ⟨g1, g2, g3⟩
    · by_cases hd : done k = true
      · by_cases hk : k = j
        · subst hk
          refine .inr ⟨Nat.le_refl _, by simp, ?_⟩
          rw [h]; simp [hd]
        · refine .inl ?_
          rw [h]; simp [hd, hk]
      · refine .inl ?_
        rw [h]; simp [hd]
    · obtain ⟨i, rfl⟩ : ∃ i, j = k + 1 + i := ⟨j - (k + 1), by omega⟩
      refine .inr ⟨by omega, by rw [List.length_cons]; omega, ?_⟩
      rw [g3, show k + 1 + i - (k + 1) = i by omega, show k + 1 + i - k = i + 1 by omega, List.getD_cons_succ]

/-- An interrupted sprite row changes no pixel outside the row's set bits. -/
theorem drawSomeRow_pixel (done : Nat → Bool) (b : Byte) (x0 y item n c : Nat) (f : Framebuffer) (u v : Nat)
    (h : ¬ rowCovers b x0 y c n u v) :
    Framebuffer.pixel (drawSomeRow done b x0 y item c n f) u v = Framebuffer.pixel f u v := by
  induction n generalizing c f with
  | zero => rfl
  | succ n ih =>
    rw [rowCovers_succ, not_or] at h
    rw [drawSomeRow, ih _ _ h.2]
    by_cases hc : (b.getMsbD c && done (item + c)) = true
    · rw [if_pos hc, Framebuffer.toggle_pixel, if_neg]
      exact fun e => h.1 ⟨by simp only [Bool.and_eq_true] at hc; exact hc.1, e⟩
    · rw [if_neg hc]

/-- An interrupted sprite changes no pixel outside its set bits. -/
theorem drawSomeRows_pixel (done : Nat → Bool) (bs : List Byte) (item x0 y : Nat) (f : Framebuffer) (u v : Nat)
    (h : ¬ rowsCover bs x0 y u v) :
    Framebuffer.pixel (drawSomeRows done item bs x0 y f) u v = Framebuffer.pixel f u v := by
  induction bs generalizing item y f with
  | nil => rfl
  | cons b bs ih =>
    rw [rowsCover_cons, not_or] at h
    rw [drawSomeRows, ih _ _ _ h.2, drawSomeRow_pixel _ _ _ _ _ _ _ _ _ _ h.1]

/-- What an instruction that raised an error leaves behind differs in registers, memory and framebuffer only. -/
theorem State.leftBehind_frame (s : State) (i : Instr) :
    s.leftBehind i = { s with
      regs := (s.leftBehind i).regs, mem := (s.leftBehind i).mem, fb := (s.leftBehind i).fb
      freeCount := (s.leftBehind i).freeCount } := by
  cases i <;> rfl

/-- An instruction that raised an error leaves memory in canonical form. -/
theorem State.leftBehind_wf (s : State) (i : Instr) (w : Memory.wf s.params s.mem = true) :
    Memory.wf (s.leftBehind i).params (s.leftBehind i).mem = true := by
  cases i
  case ldB => exact (Memory.storeSome_spec _ _ _ _ _ _).2 w
  case storeRegs => exact (Memory.storeSome_spec _ _ _ _ _ _).2 w
  all_goals exact w

end Sys2Proof.Machine
end

