-- ==== Sys2Proof/Laws/Step.lean ====
section
/-!
SUPPORT. Everything one step can do (rules R37, R41): the CPU's turn, the CPU's step by its fetch and decode, and the
turns of the other agents.
-/
namespace Sys2Proof.Machine

/-- When the CPU moves next, the step is the CPU's turn with that turn taken. -/
theorem step_cpu (s : State) (h : s.CpuNext) : step s = s.turnTaken.cpuTurn := by
  unfold step State.turn State.turnTaken
  rcases h with h | h
  · have e : s.schedule = [] := by simpa using h
    rw [e]; rw [← e]; cases s; simp_all
  · match hs : s.schedule, h with
    | t :: rest, h =>
      obtain rfl : t = .cpu := by simpa using h
      rfl

/-- When another agent moves next, the step is that agent's turn. -/
theorem step_agent (s : State) (t : Turn) (rest : List Turn) (h : s.schedule = t :: rest) (ht : t ≠ .cpu) :
    step s = .next ((s.setSchedule rest).agentTurn t) := by
  unfold step State.turn
  rw [h]
  cases t <;> first | rfl | exact absurd rfl ht

/-- A step is the CPU's turn or another agent's. -/
theorem step_cases (s : State) :
    (s.CpuNext ∧ step s = s.turnTaken.cpuTurn) ∨
    ∃ t rest, s.schedule = t :: rest ∧ t ≠ .cpu ∧ step s = .next ((s.setSchedule rest).agentTurn t) := by
  match h : s.schedule with
  | [] => exact .inl ⟨by simp [State.CpuNext, h], step_cpu s (by simp [State.CpuNext, h])⟩
  | t :: rest =>
    by_cases ht : t = .cpu
    · subst ht; exact .inl ⟨by simp [State.CpuNext, h], step_cpu s (by simp [State.CpuNext, h])⟩
    · exact .inr ⟨t, rest, rfl, ht, step_agent s t rest h ht⟩

/-- A running, free CPU takes a CPU step. -/
theorem State.cpuTurn_step (s : State) (h1 : s.halted = .running) (h2 : s.waiting = none) : s.cpuTurn = s.cpuStep := by
  unfold State.cpuTurn; rw [h1, h2]

/-- The CPU's turn, by the engine's and the hold's state (R25, R26). -/
theorem State.cpuTurn_cases (s : State) :
    (∃ e, s.halted = .halted e ∧ s.cpuTurn = .fault e) ∨
    (∃ x, s.halted = .running ∧ s.waiting = some x ∧ s.cpuTurn = .next (s.keyWaitTurn x)) ∨
    (s.halted = .running ∧ s.waiting = none ∧ s.cpuTurn = s.cpuStep) := by
  unfold State.cpuTurn
  cases hh : s.halted with
  | halted e => exact .inl ⟨e, rfl, rfl⟩
  | running =>
    cases hw : s.waiting with
    | none => exact .inr (.inr ⟨rfl, rfl, rfl⟩)
    | some x => exact .inr (.inl ⟨x, rfl, rfl, rfl⟩)

/-- A CPU step, by what its fetch and decode meet first (R121). -/
theorem State.cpuStep_cases (s : State) :
    (0xFFE < s.pc.toNat ∧ s.cpuStep = .next (s.halt (.boundsError (.fetch s.pc.toNat)))) ∨
    (s.pc.toNat ≤ 0xFFE ∧ ∃ w, w = bigEndian (s.peek s.pc.toNat) (s.peek (s.pc.toNat + 1)) ∧
      ((∃ e, decodeWord w = .error e ∧ s.cpuStep = .next (s.advance.halt (.decodeError w))) ∨
       (∃ i, decodeWord w = .ok i ∧ s.cpuStep = s.advance.settle i (exec i s.advance)))) := by
  obtain ⟨h1, h2⟩ := s.fetchWord_spec
  unfold State.cpuStep
  by_cases hp : s.pc.toNat ≤ 0xFFE
  · refine .inr ⟨hp, _, rfl, ?_⟩
    rw [h1 hp]
    cases hd : decodeWord (bigEndian (s.peek s.pc.toNat) (s.peek (s.pc.toNat + 1))) with
    | error e => exact .inl ⟨e, rfl, by simp only [hd]⟩
    | ok i => exact .inr ⟨i, rfl, by simp only [hd]⟩
  · exact .inl ⟨by omega, by rw [h2 (by omega)]⟩

/-! ### Runs -/

@[simp] theorem State.after_zero (s : State) : State.after 0 s = some s := rfl

/-- A step that gives a next state, then the rest of the run. -/
theorem State.after_succ {s t : State} (n : Nat) (h : step s = .next t) : State.after (n + 1) s = State.after n t := by
  rw [State.after, h]

/-- A longer run has a first step that gives a next state. -/
theorem State.after_succ_inv {s u : State} {n : Nat} (h : State.after (n + 1) s = some u) :
    ∃ t, step s = .next t ∧ State.after n t = some u := by
  rw [State.after] at h
  split at h
  · exact ⟨_, ‹_›, h⟩
  · cases h
  · cases h

/-- A run of `n + k` steps is one of `n`, then one of `k`. -/
theorem State.after_add {s t : State} {n : Nat} (k : Nat) (h : State.after n s = some t) :
    State.after (n + k) s = State.after k t := by
  induction n generalizing s with
  | zero => cases h; rw [Nat.zero_add]
  | succ n ih =>
    obtain ⟨v, hv, hn⟩ := State.after_succ_inv h
    rw [Nat.succ_add, State.after_succ _ hv, ih hn]

/-- What every step keeps, a run keeps. -/
theorem State.after_keeps (p : State → Prop) (hp : ∀ s t, p s → step s = .next t → p t) {s t : State} {n : Nat}
    (hs : p s) (h : State.after n s = some t) : p t := by
  induction n generalizing s with
  | zero => cases h; exact hs
  | succ n ih =>
    obtain ⟨v, hv, hn⟩ := State.after_succ_inv h
    exact ih (hp s v hs hv) hn

end Sys2Proof.Machine
end

