-- ==== Sys2Proof/Laws/Operands.lean ====
section
/-!
SUPPORT. The small lemmas of the operand forms, the flag write, the skips, the key wait, and of the terms of the
statements (Safety.lean).
-/
namespace Sys2Proof.Machine

/-! ### Which words select an instruction -/

/-- A pattern of a key alone: it is enough that every word with that key decodes so. -/
theorem selects_of_key (bits mask : Word) (f : Word → Instr) (hm : fieldK mask = 0xF#4)
    (hd : ∀ w, fieldK w = fieldK bits → decodeWord w = .ok (f w)) : Selects bits mask f :=
  fun w h => hd w (by rw [← fieldK_and w mask hm, h])

/-- A pattern of the key and the low nibble (group 8). -/
theorem selects_of_keyN (bits mask : Word) (f : Word → Instr) (hm : fieldK mask = 0xF#4) (hn : fieldN mask = 0xF#4)
    (hd : ∀ w, fieldK w = fieldK bits → fieldN w = fieldN bits → decodeWord w = .ok (f w)) : Selects bits mask f :=
  fun w h => hd w (by rw [← fieldK_and w mask hm, h]) (by rw [← fieldN_and w mask hn, h])

/-- A pattern of the key and the low byte (groups E and F). -/
theorem selects_of_keyNN (bits mask : Word) (f : Word → Instr) (hm : fieldK mask = 0xF#4) (hn : fieldNN mask = 0xFF#8)
    (hd : ∀ w, fieldK w = fieldK bits → fieldNN w = fieldNN bits → decodeWord w = .ok (f w)) : Selects bits mask f :=
  fun w h => hd w (by rw [← fieldK_and w mask hm, h]) (by rw [← fieldNN_and w mask hn, h])

/-- A pattern of all sixteen bits (group 0). -/
theorem selects_of_word (bits : Word) (f : Word → Instr) (hd : decodeWord bits = .ok (f bits)) :
    Selects bits 0xFFFF#16 f := fun w h => by
  have e : w = bits := by rw [← h]; exact (BitVec.and_allOnes (x := w)).symm
  rw [e]; exact hd

/-- Two bytes decode to an instruction if and only if their word does. -/
theorem decodeBytes_two (hi lo : Byte) (i : Instr) :
    decodeBytes [hi, lo] = .ok (i, []) ↔ decodeWord (bigEndian hi lo) = .ok i := by
  show (match decodeWord (bigEndian hi lo) with
    | .ok i => Except.ok (i, [])
    | .error e => .error e) = _ ↔ _
  cases decodeWord (bigEndian hi lo) <;> simp

/-! ### A step that fetches -/

/-- A fetching CPU's step is its CPU step. -/
theorem step_fetching (s : State) (h : s.Fetching) : step s = s.turnTaken.cpuStep :=
  (step_cpu s h.1).trans (s.turnTaken.cpuTurn_step h.2.1 h.2.2)

/-- The turn taken and PC advanced is the handler's state. -/
theorem State.turnTaken_advance (s : State) : s.turnTaken.advance = s.handler := rfl

/-! ### PC and stack -/

/-- A skip changes PC only (R64). -/
theorem State.skipIf_eq (s : State) (c : Bool) :
    s.skipIf c = { s with pc := if c = true then s.pc + 2#16 else s.pc } := by
  cases c <;> rfl

/-- When a CALL finds no room (R68). -/
theorem State.stackFull_iff (s : State) : s.stackFull = true ↔ s.params.stackDepth = some s.stack.length := by
  unfold State.stackFull; split <;> simp_all [eq_comm]

/-! ### Registers and flags -/

/-- One register written: no other changes. -/
theorem State.setReg_sameRegsBut (s : State) (x : Reg) (v : Byte) : s.SameRegsBut (s.setReg x v) [x] :=
  fun r hr => s.setReg_reg_ne x r v fun e => hr (by rw [e]; exact List.mem_cons_self ..)

theorem flagByte_decide (b : Prop) [Decidable b] : flagByte (decide b) = flagIs b := by simp [flagByte, flagIs]

/-- A flag is 0 or 1 (R79). -/
theorem flagByte_cases (b : Bool) : flagByte b = 0#8 ∨ flagByte b = 1#8 := by cases b <;> simp [flagByte]

/-- The write of a result and its flag, under either order (R80). -/
theorem State.setRegFlag_spec (s : State) (x : Reg) (v : Byte) (b : Bool) :
    s.ResultAndFlag (s.setRegFlag x v b) x v (flagByte b) ∧ s.SameRegsBut (s.setRegFlag x v b) [x, regF] := by
  refine ⟨⟨fun h => ?_, fun h => ?_⟩, fun r hr => ?_⟩
  · simp only [State.setRegFlag_reg]; split <;> simp [h, Ne.symm h]
  · simp only [State.setRegFlag_reg]; cases s.params.flagOrder <;> simp [h]
  · simp only [List.mem_cons, List.not_mem_nil, or_false, not_or] at hr
    simp only [State.setRegFlag_reg]; split <;> simp [hr]

/-! ### Keys -/

@[simp] theorem keyByte_toNat (k : Key) : (keyByte k).toNat = k.toNat := by
  have := k.isLt
  unfold keyByte; rw [BitVec.toNat_setWidth]; omega

/-- A key equals a byte when their values are equal: no masking (R116). -/
theorem keyByte_eq_iff (k : Key) (b : Byte) : keyByte k = b ↔ k.toNat = b.toNat :=
  ⟨fun h => by rw [← h, keyByte_toNat], fun h => BitVec.eq_of_toNat_eq (by rw [keyByte_toNat, h])⟩

/-- The registers after a completed key wait (R112). -/
theorem State.takeKey_reg (s : State) (x : Reg) (k : Key) (rest : List Key) (q : Reg) :
    (s.takeKey x k rest).reg q = if q = x then keyByte k else s.reg q := by
  simp [State.takeKey, State.setReg_reg]

/-! ### Sprites -/

/-- A sprite covers a pixel when one of its rows does, drawn on its own. -/
theorem covers_by_row (f : Nat → Byte) (n x0 y0 px py : Nat) :
    covers ((List.range n).map f) x0 y0 px py ↔ ∃ r, r < n ∧ covers [f r] x0 (y0 + r) px py := by
  constructor
  · rintro ⟨r, c, h1, h2, h3, h4, h5⟩
    have h1' : r < n := by simpa using h1
    exact ⟨r, h1', 0, c, by simp, h2, by simpa [List.getD_eq_getElem?_getD, h1'] using h3, h4, by simpa using h5⟩
  · rintro ⟨r, h1, r', c, h0, h2, h3, h4, h5⟩
    obtain rfl : r' = 0 := by simpa using h0
    exact ⟨r, c, by simpa using h1, h2, by simpa [List.getD_eq_getElem?_getD, h1] using h3, h4, by simpa using h5⟩

end Sys2Proof.Machine
end

