-- ==== Sys2Proof/Laws/PerInstr.lean ====
section
/-!
SUPPORT. One lemma per instruction: its encoding carries its row's match value under its row's mask (rule R54).
-/
namespace Sys2Proof

/-- An instruction's word selects its own row of the opcode map (R54). -/
def Laws.EncodesByRow.Statement (i : Instr) : Prop := encode i &&& i.row.mask = i.row.bits

/-- A word of format A under a mask that keeps the key only. -/
theorem formatA_key (k : Nibble) (nnn : Addr) : formatA k nnn &&& 0xF000#16 = formatA k 0#12 := by
  unfold formatA; ext i hi; simp; interval_cases i <;> simp

/-- A word of format RC under a mask that keeps the key only. -/
theorem formatRC_key (k : Nibble) (x : Reg) (nn : Byte) : formatRC k x nn &&& 0xF000#16 = formatRC k 0#4 0#8 := by
  unfold formatRC; ext i hi; simp; interval_cases i <;> simp

/-- A word of format R under a mask that keeps the key and the low byte. -/
theorem formatRC_keyByte (k : Nibble) (x : Reg) (nn : Byte) : formatRC k x nn &&& 0xF0FF#16 = formatRC k 0#4 nn := by
  unfold formatRC; ext i hi; simp; interval_cases i <;> simp

/-- A word of format RR or RRN under a mask that keeps the key only. -/
theorem formatRRN_key (k : Nibble) (x y : Reg) (n : Nibble) :
    formatRRN k x y n &&& 0xF000#16 = formatRRN k 0#4 0#4 0#4 := by
  unfold formatRRN; ext i hi; simp; interval_cases i <;> simp

/-- A word of format RR under a mask that keeps the key and the low nibble. -/
theorem formatRRN_keyNibble (k : Nibble) (x y : Reg) (n : Nibble) :
    formatRRN k x y n &&& 0xF00F#16 = formatRRN k 0#4 0#4 n := by
  unfold formatRRN; ext i hi; simp; interval_cases i <;> simp

theorem Laws.EncodesByRow.cls : Laws.EncodesByRow.Statement (.cls) :=
  by unfold Laws.EncodesByRow.Statement; decide

theorem Laws.EncodesByRow.ret : Laws.EncodesByRow.Statement (.ret) :=
  by unfold Laws.EncodesByRow.Statement; decide

theorem Laws.EncodesByRow.jp (nnn : Addr) : Laws.EncodesByRow.Statement (.jp nnn) :=
  (formatA_key _ nnn).trans rfl

theorem Laws.EncodesByRow.call (nnn : Addr) : Laws.EncodesByRow.Statement (.call nnn) :=
  (formatA_key _ nnn).trans rfl

theorem Laws.EncodesByRow.seByte (x : Reg) (nn : Byte) : Laws.EncodesByRow.Statement (.seByte x nn) :=
  (formatRC_key _ x nn).trans rfl

theorem Laws.EncodesByRow.sneByte (x : Reg) (nn : Byte) : Laws.EncodesByRow.Statement (.sneByte x nn) :=
  (formatRC_key _ x nn).trans rfl

theorem Laws.EncodesByRow.seReg (x y : Reg) : Laws.EncodesByRow.Statement (.seReg x y) :=
  (formatRRN_key _ x y _).trans rfl

theorem Laws.EncodesByRow.ldByte (x : Reg) (nn : Byte) : Laws.EncodesByRow.Statement (.ldByte x nn) :=
  (formatRC_key _ x nn).trans rfl

theorem Laws.EncodesByRow.addByte (x : Reg) (nn : Byte) : Laws.EncodesByRow.Statement (.addByte x nn) :=
  (formatRC_key _ x nn).trans rfl

theorem Laws.EncodesByRow.ldReg (x y : Reg) : Laws.EncodesByRow.Statement (.ldReg x y) :=
  (formatRRN_keyNibble _ x y _).trans rfl

theorem Laws.EncodesByRow.orReg (x y : Reg) : Laws.EncodesByRow.Statement (.orReg x y) :=
  (formatRRN_keyNibble _ x y _).trans rfl

theorem Laws.EncodesByRow.andReg (x y : Reg) : Laws.EncodesByRow.Statement (.andReg x y) :=
  (formatRRN_keyNibble _ x y _).trans rfl

theorem Laws.EncodesByRow.xorReg (x y : Reg) : Laws.EncodesByRow.Statement (.xorReg x y) :=
  (formatRRN_keyNibble _ x y _).trans rfl

theorem Laws.EncodesByRow.addReg (x y : Reg) : Laws.EncodesByRow.Statement (.addReg x y) :=
  (formatRRN_keyNibble _ x y _).trans rfl

theorem Laws.EncodesByRow.sub (x y : Reg) : Laws.EncodesByRow.Statement (.sub x y) :=
  (formatRRN_keyNibble _ x y _).trans rfl

theorem Laws.EncodesByRow.shr (x y : Reg) : Laws.EncodesByRow.Statement (.shr x y) :=
  (formatRRN_keyNibble _ x y _).trans rfl

theorem Laws.EncodesByRow.subn (x y : Reg) : Laws.EncodesByRow.Statement (.subn x y) :=
  (formatRRN_keyNibble _ x y _).trans rfl

theorem Laws.EncodesByRow.shl (x y : Reg) : Laws.EncodesByRow.Statement (.shl x y) :=
  (formatRRN_keyNibble _ x y _).trans rfl

theorem Laws.EncodesByRow.sneReg (x y : Reg) : Laws.EncodesByRow.Statement (.sneReg x y) :=
  (formatRRN_key _ x y _).trans rfl

theorem Laws.EncodesByRow.ldI (nnn : Addr) : Laws.EncodesByRow.Statement (.ldI nnn) :=
  (formatA_key _ nnn).trans rfl

theorem Laws.EncodesByRow.jpV0 (nnn : Addr) : Laws.EncodesByRow.Statement (.jpV0 nnn) :=
  (formatA_key _ nnn).trans rfl

theorem Laws.EncodesByRow.rnd (x : Reg) (nn : Byte) : Laws.EncodesByRow.Statement (.rnd x nn) :=
  (formatRC_key _ x nn).trans rfl

theorem Laws.EncodesByRow.drw (x y : Reg) (n : Nibble) : Laws.EncodesByRow.Statement (.drw x y n) :=
  (formatRRN_key _ x y n).trans rfl

theorem Laws.EncodesByRow.skp (x : Reg) : Laws.EncodesByRow.Statement (.skp x) :=
  (formatRC_keyByte _ x _).trans rfl

theorem Laws.EncodesByRow.sknp (x : Reg) : Laws.EncodesByRow.Statement (.sknp x) :=
  (formatRC_keyByte _ x _).trans rfl

theorem Laws.EncodesByRow.ldVxDt (x : Reg) : Laws.EncodesByRow.Statement (.ldVxDt x) :=
  (formatRC_keyByte _ x _).trans rfl

theorem Laws.EncodesByRow.ldVxK (x : Reg) : Laws.EncodesByRow.Statement (.ldVxK x) :=
  (formatRC_keyByte _ x _).trans rfl

theorem Laws.EncodesByRow.ldDtVx (x : Reg) : Laws.EncodesByRow.Statement (.ldDtVx x) :=
  (formatRC_keyByte _ x _).trans rfl

theorem Laws.EncodesByRow.ldStVx (x : Reg) : Laws.EncodesByRow.Statement (.ldStVx x) :=
  (formatRC_keyByte _ x _).trans rfl

theorem Laws.EncodesByRow.addI (x : Reg) : Laws.EncodesByRow.Statement (.addI x) :=
  (formatRC_keyByte _ x _).trans rfl

theorem Laws.EncodesByRow.ldF (x : Reg) : Laws.EncodesByRow.Statement (.ldF x) :=
  (formatRC_keyByte _ x _).trans rfl

theorem Laws.EncodesByRow.ldB (x : Reg) : Laws.EncodesByRow.Statement (.ldB x) :=
  (formatRC_keyByte _ x _).trans rfl

theorem Laws.EncodesByRow.storeRegs (x : Reg) : Laws.EncodesByRow.Statement (.storeRegs x) :=
  (formatRC_keyByte _ x _).trans rfl

theorem Laws.EncodesByRow.loadRegs (x : Reg) : Laws.EncodesByRow.Statement (.loadRegs x) :=
  (formatRC_keyByte _ x _).trans rfl

end Sys2Proof
end

