-- ==== Sys2Proof/Tests/Slice0.lean ====
section
/-!
SUPPORT. Tests of the model on the spec's own vectors (95_test_vectors.md) and on words written out from the opcode map
(rule R54), and a witness for the hypotheses of each statement.
-/
namespace Sys2Proof.Tests
open Sys2Proof Sys2Proof.Machine

/-! ### Helpers -/

/-- Whether an outcome is a next state that satisfies a check. -/
def isNext (o : Host.Outcome State Fault Refusal) (check : State → Bool) : Bool :=
  match o with
  | .next t => check t
  | _ => false

/-- Whether an outcome is this fault. -/
def isFault (o : Host.Outcome State Fault Refusal) (e : Fault) : Bool :=
  match o with
  | .fault f => decide (f = e)
  | _ => false

/-- The reset state with some registers set. -/
def regs (l : List (Reg × Byte)) : State := l.foldl (fun s p => s.setReg p.1 p.2) State.reset

/-- Bytes placed in memory from an address on. -/
def bytes (s : State) (a : Nat) : List Byte → State
  | [] => s
  | b :: bs => bytes (s.poke a b) (a + 1) bs

/-- The word `w` placed where the next step fetches, stepped, and checked. -/
def runs (w : Nat) (s : State) (check : State → Bool) : Bool := isNext (step (s.withFetchWord 16 w)) check

/-- A CPU that fetches the word `w` next. -/
def ready (w : Nat) : State := State.reset.withFetchWord 16 w

/-- Sixteen return addresses, the default depth (R18). -/
def fullStack : List Word := List.replicate 16 0x202#16

/-! ### Decoding: one word for every instruction, by hand from R54's patterns (T1) -/

theorem test_decode_cls : decodeWord 0x00E0#16 = .ok .cls := by decide
theorem test_decode_ret : decodeWord 0x00EE#16 = .ok .ret := by decide
theorem test_decode_jp : decodeWord 0x1ABC#16 = .ok (.jp 0xABC#12) := by decide
theorem test_decode_call : decodeWord 0x2123#16 = .ok (.call 0x123#12) := by decide
theorem test_decode_seByte : decodeWord 0x3A05#16 = .ok (.seByte 0xA#4 0x05#8) := by decide
theorem test_decode_sneByte : decodeWord 0x4B10#16 = .ok (.sneByte 0xB#4 0x10#8) := by decide
theorem test_decode_seReg : decodeWord 0x5120#16 = .ok (.seReg 1#4 2#4) ∧ decodeWord 0x5127#16 = .ok (.seReg 1#4 2#4) := by
  decide
theorem test_decode_ldByte : decodeWord 0x612A#16 = .ok (.ldByte 1#4 0x2A#8) := by decide
theorem test_decode_addByte : decodeWord 0x70FF#16 = .ok (.addByte 0#4 0xFF#8) := by decide
theorem test_decode_ldReg : decodeWord 0x8120#16 = .ok (.ldReg 1#4 2#4) := by decide
theorem test_decode_orReg : decodeWord 0x8121#16 = .ok (.orReg 1#4 2#4) := by decide
theorem test_decode_andReg : decodeWord 0x8122#16 = .ok (.andReg 1#4 2#4) := by decide
theorem test_decode_xorReg : decodeWord 0x8123#16 = .ok (.xorReg 1#4 2#4) := by decide
theorem test_decode_addReg : decodeWord 0x8124#16 = .ok (.addReg 1#4 2#4) := by decide
theorem test_decode_sub : decodeWord 0x8125#16 = .ok (.sub 1#4 2#4) := by decide
theorem test_decode_shr : decodeWord 0x8126#16 = .ok (.shr 1#4 2#4) := by decide
theorem test_decode_subn : decodeWord 0x8127#16 = .ok (.subn 1#4 2#4) := by decide
theorem test_decode_shl : decodeWord 0x812E#16 = .ok (.shl 1#4 2#4) := by decide
theorem test_decode_sneReg : decodeWord 0x9120#16 = .ok (.sneReg 1#4 2#4) := by decide
theorem test_decode_ldI : decodeWord 0xA2F0#16 = .ok (.ldI 0x2F0#12) := by decide
theorem test_decode_jpV0 : decodeWord 0xB300#16 = .ok (.jpV0 0x300#12) := by decide
theorem test_decode_rnd : decodeWord 0xC10F#16 = .ok (.rnd 1#4 0x0F#8) := by decide
theorem test_decode_drw : decodeWord 0xD125#16 = .ok (.drw 1#4 2#4 5#4) := by decide
theorem test_decode_skp : decodeWord 0xE19E#16 = .ok (.skp 1#4) := by decide
theorem test_decode_sknp : decodeWord 0xE1A1#16 = .ok (.sknp 1#4) := by decide
theorem test_decode_ldVxDt : decodeWord 0xF207#16 = .ok (.ldVxDt 2#4) := by decide
theorem test_decode_ldVxK : decodeWord 0xF30A#16 = .ok (.ldVxK 3#4) := by decide
theorem test_decode_ldDtVx : decodeWord 0xF215#16 = .ok (.ldDtVx 2#4) := by decide
theorem test_decode_ldStVx : decodeWord 0xF218#16 = .ok (.ldStVx 2#4) := by decide
theorem test_decode_addI : decodeWord 0xF21E#16 = .ok (.addI 2#4) := by decide
theorem test_decode_ldF : decodeWord 0xF029#16 = .ok (.ldF 0#4) := by decide
theorem test_decode_ldB : decodeWord 0xF033#16 = .ok (.ldB 0#4) := by decide
theorem test_decode_storeRegs : decodeWord 0xF255#16 = .ok (.storeRegs 2#4) := by decide
theorem test_decode_loadRegs : decodeWord 0xF165#16 = .ok (.loadRegs 1#4) := by decide

/-- The illegal neighbours of T1 carry their word in the error. -/
theorem test_decode_illegal :
    [0x00E1#16, 0x00EF#16, 0x01E0#16, 0x0000#16, 0x0123#16, 0x8128#16, 0x812D#16, 0x812F#16, 0xE19F#16, 0xE1A0#16,
      0xE100#16, 0xF208#16, 0xF20B#16, 0xF21F#16, 0xF230#16, 0xF275#16, 0xF2FF#16].all
      (fun w => decide (decodeWord w = .error (.unrecognized w)) && wordIllegal w) = true := by decide

/-- Bytes in memory order, the rest of the bytes, and a truncated word (R32, R46). -/
theorem test_decode_bytes :
    decodeBytes [0x61#8, 0x2A#8, 0x12#8] = .ok (.ldByte 1#4 0x2A#8, [0x12#8]) ∧
    decodeBytes [0x61#8] = .error (.truncated 1) ∧ decodeBytes [] = .error (.truncated 0) := by decide

/-- Encoding: words written out from R54's patterns, one of each format (R47). -/
theorem test_encode :
    encode (.jp 0xABC#12) = 0x1ABC#16 ∧ encode (.seByte 0xA#4 0x05#8) = 0x3A05#16 ∧
    encode (.seReg 1#4 2#4) = 0x5120#16 ∧ encode (.shl 1#4 2#4) = 0x812E#16 ∧
    encode (.drw 1#4 2#4 5#4) = 0xD125#16 ∧ encode (.ldB 7#4) = 0xF733#16 ∧ encode .ret = 0x00EE#16 := by decide

/-- Nibble extraction on the source's words (S1). -/
theorem test_nibbles :
    (nib 0xABCD#16 4 4).toNat = 0xA ∧ (nib 0xABCD#16 3 3).toNat = 0xB ∧ (nib 0xABCD#16 1 2).toNat = 0xCD ∧
    (nib 0xABCD#16 1 3).toNat = 0xBCD ∧ (nib 0xABCD#16 1 4).toNat = 0xABCD ∧ (nib 0x0001#16 4 4).toNat = 0 := by decide

/-! ### The checks refuse ill-formed terms -/

/-- `SYS`, a group 8 hole, and the neighbour of 0xF265 are no instructions (R57); their legal neighbours are. -/
theorem test_wordLegal_refuses :
    wordLegal 0x0123#16 = false ∧ wordLegal 0x812F#16 = false ∧ wordLegal 0xE19F#16 = false ∧ wordLegal 0xF275#16 = false ∧
    wordLegal 0x00E0#16 = true ∧ wordLegal 0x5127#16 = true := by decide

/-- 3585 bytes do not fit, 3584 do (S9). -/
theorem test_imageFits_refuses :
    imageFits (List.replicate 3585 0#8) = false ∧ imageFits (List.replicate 3584 0#8) = true := by
  rw [← Bool.not_eq_true, imageFits_iff, imageFits_iff, List.length_replicate, List.length_replicate]; decide

/-- A font of 79 bytes is refused, the default one is not (R27). -/
theorem test_params_refuses :
    ({ Params.default with font := Config.defaultFont.tail } : Params).wf = false ∧ Params.default.wf = true := by decide

/-! ### Memory and reset (T8) -/

/-- The font's first and last byte, and the zeros beside it. -/
theorem test_reset_memory :
    State.reset.peek 0x1B0 = 0xF0#8 ∧ State.reset.peek 0x1FF = 0x80#8 ∧ State.reset.peek 0x1AF = 0#8 ∧
    State.reset.peek 0x200 = 0#8 ∧ State.reset.pc = 0x200#16 := by decide

/-- A write and its undoing leave the same memory; entries stay in order. -/
theorem test_memory_canonical :
    ((State.reset.poke 0x300 1#8).poke 0x300 0#8).mem = [] ∧
    ((State.reset.poke 0x301 2#8).poke 0x300 1#8).mem = [(0x300, 1#8), (0x301, 2#8)] ∧
    (State.reset.poke 0x1B0 0xF0#8).mem = [] := by decide

/-- `load` of 12 00, then run start (T8, R145 to R147). -/
theorem test_boot :
    isNext (boot Params.default [0x12#8, 0x00#8]) (fun t =>
      t.peek 0x200 == 0x12#8 && t.peek 0x201 == 0#8 && t.peek 0x202 == 0#8 && t.pc == 0x200#16) = true := by decide

/-- With no program the first step halts on the word 0 (T8, P6). -/
theorem test_empty_program :
    isNext (step State.reset) (fun t => t.pc == 0x202#16 && t.halted == .halted (.decodeError 0#16)) = true := by decide

/-- The host's two entry points: the row's instruction, and its step. -/
theorem test_table_word :
    decodeTableWord 16 0x612A = some (.ldByte 1#4 0x2A#8) ∧ decodeTableWord 16 0x0000 = none ∧
    runs 0x612A State.reset (fun t => t.reg 1#4 == 0x2A#8 && t.pc == 0x202#16) = true := by decide

/-! ### Fetch (T2) -/

theorem test_fetch_odd :
    (bytes { State.reset with pc := 0x201#16 } 0x201 [0x2A#8, 0x00#8]).fetchWord = .ok 0x2A00#16 := by decide
theorem test_fetch_last :
    isNext (step (bytes { State.reset with pc := 0xFFE#16 } 0xFFE [0x12#8, 0x00#8])) (fun t => t.pc == 0x200#16) = true := by
  decide
theorem test_fetch_outside :
    isNext (step { State.reset with pc := 0xFFF#16 }) (fun t =>
      t.pc == 0xFFF#16 && t.halted == .halted (.boundsError (.fetch 0xFFF))) = true := by decide
theorem test_fetch_far :
    isNext (step { State.reset with pc := 0x10FE#16 }) (fun t =>
      t.halted == .halted (.boundsError (.fetch 0x10FE))) = true := by decide

/-! ### Control transfer (T3) -/

theorem test_jp : runs 0x1234 State.reset (fun t => t.pc == 0x234#16) = true := by decide
theorem test_call : runs 0x2300 State.reset (fun t => t.pc == 0x300#16 && t.stack == [0x202#16]) = true := by decide
theorem test_call_full :
    runs 0x2300 { State.reset with stack := fullStack } (fun t =>
      t.pc == 0x202#16 && t.stack == fullStack && t.halted == .halted (.boundsError .stackOverflow)) = true := by decide
theorem test_ret :
    isNext (exec .ret { State.reset with stack := [42#16, 43#16] }) (fun t => t.pc == 43#16 && t.stack == [42#16]) = true := by
  decide
theorem test_ret_empty :
    runs 0x00EE State.reset (fun t => t.pc == 0x202#16 && t.halted == .halted (.boundsError .stackUnderflow)) = true := by
  decide
theorem test_jpV0 :
    runs 0xBFFF (regs [(0#4, 0xFF#8)]) (fun t => t.pc == 0x10FE#16) = true ∧
    runs 0xB2F0 (regs [(0#4, 0#8), (2#4, 0x55#8)]) (fun t => t.pc == 0x2F0#16) = true := by decide
theorem test_seByte :
    runs 0x3A05 (regs [(0xA#4, 5#8)]) (fun t => t.pc == 0x204#16) = true ∧
    runs 0x3A05 (regs [(0xA#4, 6#8)]) (fun t => t.pc == 0x202#16) = true := by decide
theorem test_sneByte :
    runs 0x4A05 (regs [(0xA#4, 5#8)]) (fun t => t.pc == 0x202#16) = true ∧
    runs 0x4A05 (regs [(0xA#4, 6#8)]) (fun t => t.pc == 0x204#16) = true := by decide
theorem test_seReg :
    runs 0x5120 (regs [(1#4, 7#8), (2#4, 7#8)]) (fun t => t.pc == 0x204#16) = true ∧
    runs 0x5120 (regs [(1#4, 7#8), (2#4, 8#8)]) (fun t => t.pc == 0x202#16) = true := by decide
theorem test_sneReg :
    runs 0x9120 (regs [(1#4, 7#8), (2#4, 8#8)]) (fun t => t.pc == 0x204#16) = true ∧
    runs 0x9330 State.reset (fun t => t.pc == 0x202#16) = true := by decide

/-! ### Registers (T4) -/

/-- `V1 = a`, `V2 = b`, `VF` = 0x55, and the word's effect on `V1` and `VF`. -/
def alu (w : Nat) (a b v f : Byte) : Bool :=
  runs w (regs [(1#4, a), (2#4, b), (regF, 0x55#8)]) (fun t => t.reg 1#4 == v && t.reg regF == f && t.pc == 0x202#16)

theorem test_ldByte : alu 0x612A 0#8 0#8 0x2A#8 0x55#8 = true := by decide
theorem test_addByte : alu 0x71FF 10#8 0#8 9#8 0x55#8 = true ∧ alu 0x7164 200#8 0#8 44#8 0x55#8 = true := by decide
theorem test_ldReg : alu 0x8120 1#8 0x33#8 0x33#8 0x55#8 = true := by decide
theorem test_orReg : alu 0x8121 0x0C#8 0x0A#8 0x0E#8 0x55#8 = true := by decide
theorem test_andReg : alu 0x8122 0x0C#8 0x0A#8 0x08#8 0x55#8 = true := by decide
theorem test_xorReg : alu 0x8123 0x0C#8 0x0A#8 0x06#8 0x55#8 = true := by decide
theorem test_addReg : alu 0x8124 10#8 250#8 4#8 1#8 = true ∧ alu 0x8124 0x80#8 0x7F#8 0xFF#8 0#8 = true := by decide
theorem test_sub : alu 0x8125 5#8 10#8 0xFB#8 0#8 = true ∧ alu 0x8125 7#8 7#8 0#8 1#8 = true := by decide
theorem test_subn : alu 0x8127 5#8 10#8 5#8 1#8 = true ∧ alu 0x8127 1#8 0#8 0xFF#8 0#8 = true := by decide
theorem test_shr : alu 0x8126 0xFF#8 0#8 0x7F#8 1#8 = true ∧ alu 0x8126 0xAA#8 3#8 0x55#8 0#8 = true := by decide
theorem test_shl : alu 0x812E 0x81#8 0#8 0x02#8 1#8 = true ∧ alu 0x812E 0xAA#8 3#8 0x54#8 1#8 = true := by decide

/-- `VF` as the destination: the flag is last, or the result under `result_last` (R80). -/
theorem test_flag_order :
    runs 0x8F14 (regs [(regF, 0xF0#8), (1#4, 0x20#8)]) (fun t => t.reg regF == 1#8) = true ∧
    runs 0x8F14 { regs [(regF, 0xF0#8), (1#4, 0x20#8)] with params := { Params.default with flagOrder := .resultLast } }
      (fun t => t.reg regF == 0x10#8) = true := by decide

/-- `VF` as the source is read before the flag is written (R80), and the other shift source (R89). -/
theorem test_flag_source :
    runs 0x81F4 (regs [(1#4, 1#8), (regF, 0xFF#8)]) (fun t => t.reg 1#4 == 0#8 && t.reg regF == 1#8) = true ∧
    runs 0x8126 { regs [(1#4, 0xAA#8), (2#4, 3#8)] with params := { Params.default with shiftSrc := .y } }
      (fun t => t.reg 1#4 == 1#8 && t.reg regF == 1#8) = true := by decide

/-- A mask of 0 gives 0 for every draw, and the draw is counted (R91). -/
theorem test_rnd : runs 0xC100 (regs [(1#4, 0x77#8)]) (fun t => t.freeCount == 1 && t.pc == 0x202#16) = true ∧
    ∀ r : Byte, r &&& 0#8 = 0#8 := by
  exact ⟨by decide, fun r => BitVec.and_zero⟩

/-! ### Index register and memory (T5) -/

theorem test_ldI : runs 0xAFFF State.reset (fun t => t.i == 0x0FFF#16) = true := by decide
theorem test_addI :
    runs 0xF21E { regs [(2#4, 1#8)] with i := 0xFFFF#16 } (fun t => t.i == 0#16) = true ∧
    runs 0xF21E { regs [(2#4, 1#8), (regF, 9#8)] with i := 0xFFF#16 } (fun t => t.i == 0x1000#16 && t.reg regF == 9#8) = true := by
  decide
theorem test_ldF :
    runs 0xF029 (regs [(0#4, 0xF#8)]) (fun t => t.i == 0x1FB#16) = true ∧
    runs 0xF029 (regs [(0#4, 0xFF#8)]) (fun t => t.i == 0x6AB#16) = true := by decide
theorem test_ldB :
    runs 0xF033 { regs [(0#4, 156#8)] with i := 0x300#16 } (fun t =>
      t.peek 0x300 == 1#8 && t.peek 0x301 == 5#8 && t.peek 0x302 == 6#8 && t.i == 0x300#16) = true := by decide
theorem test_ldB_edge :
    runs 0xF033 { regs [(0#4, 255#8)] with i := 0xFFD#16 } (fun t => t.peek 0xFFF == 5#8) = true ∧
    runs 0xF033 { regs [(0#4, 255#8)] with i := 0xFFE#16 } (fun t =>
      t.halted == .halted (.boundsError (.memWrite 0x1000)) && t.pc == 0x202#16) = true := by decide
theorem test_storeRegs :
    runs 0xF255 { regs [(0#4, 1#8), (1#4, 2#8), (2#4, 3#8), (3#4, 4#8)] with i := 0x300#16 } (fun t =>
      t.peek 0x300 == 1#8 && t.peek 0x302 == 3#8 && t.peek 0x303 == 0#8 && t.i == 0x300#16) = true := by decide
theorem test_storeRegs_edge :
    runs 0xF055 { regs [(0#4, 0x77#8)] with i := 0xFFF#16 } (fun t => t.peek 0xFFF == 0x77#8) = true ∧
    runs 0xF155 { State.reset with i := 0xFFF#16 } (fun t => t.halted == .halted (.boundsError (.memWrite 0x1000))) = true := by
  decide
theorem test_loadRegs :
    runs 0xF165 (bytes { regs [(2#4, 9#8)] with i := 0x300#16 } 0x300 [0xAA#8, 0xBB#8, 0xCC#8]) (fun t =>
      t.reg 0#4 == 0xAA#8 && t.reg 1#4 == 0xBB#8 && t.reg 2#4 == 9#8 && t.i == 0x300#16) = true := by decide
theorem test_loadRegs_edge :
    runs 0xFF65 { State.reset with i := 0xFF0#16 } (fun t => t.halted == .running) = true ∧
    runs 0xFF65 { State.reset with i := 0xFF1#16 } (fun t => t.halted == .halted (.boundsError (.memRead 0x1000))) = true := by
  decide

/-! ### Display (T6) -/

theorem test_cls :
    isNext (exec .cls { State.reset with fb := Framebuffer.toggle State.reset.fb 63 31 }) (fun t =>
      Framebuffer.pixel t.fb 63 31 == false) = true := by decide

/-- The sprite 81 sets both ends of a row and nothing between; the bits wrap to the left edge. -/
theorem test_drw :
    isNext (exec (.drw 0#4 1#4 1#4) (bytes { regs [(0#4, 60#8), (1#4, 31#8)] with i := 0x300#16 } 0x300 [0x81#8])) (fun t =>
      Framebuffer.pixel t.fb 60 31 && Framebuffer.pixel t.fb 3 31 && !Framebuffer.pixel t.fb 61 31 &&
      !Framebuffer.pixel t.fb 3 0 && t.reg regF == 0#8) = true := by decide

/-- A collision, and a column read from `VF` before `VF` is written (T6). -/
theorem test_drw_collision :
    isNext (exec (.drw regF 1#4 1#4) (bytes { regs [(regF, 5#8)] with
        i := 0x300#16, fb := Framebuffer.toggle State.reset.fb 5 0 } 0x300 [0x80#8])) (fun t =>
      !Framebuffer.pixel t.fb 5 0 && t.reg regF == 1#8) = true := by decide

/-! ### Keys and timers (T7) -/

theorem test_skp :
    runs 0xE19E { regs [(1#4, 5#8)] with keyq := [5#4, 7#4] } (fun t => t.keyq == [7#4] && t.pc == 0x204#16) = true ∧
    runs 0xE19E { regs [(1#4, 0x15#8)] with keyq := [5#4] } (fun t => t.keyq == [5#4] && t.pc == 0x202#16) = true := by decide
theorem test_sknp :
    runs 0xE1A1 { regs [(1#4, 5#8)] with keyq := [5#4] } (fun t => t.keyq == [5#4] && t.pc == 0x202#16) = true ∧
    runs 0xE1A1 { regs [(1#4, 5#8)] with keyq := [7#4] } (fun t => t.keyq == [7#4] && t.pc == 0x204#16) = true := by decide
theorem test_sknp_consumes :
    runs 0xE1A1 { regs [(1#4, 5#8)] with keyq := [5#4], params := { Params.default with sknpEqConsumes := true } }
      (fun t => t.keyq == [] && t.pc == 0x202#16) = true := by decide
theorem test_ldVxK :
    runs 0xF30A { State.reset with keyq := [9#4, 2#4] } (fun t =>
      t.reg 3#4 == 9#8 && t.keyq == [2#4] && t.pc == 0x202#16 && t.waiting == none) = true := by decide
theorem test_ldVxK_holds :
    runs 0xF30A State.reset (fun t => t.waiting == some 3#4 && t.pc == 0x202#16 && t.reg 3#4 == 0#8) = true := by decide
theorem test_held_completes :
    isNext (step { State.reset with waiting := some 3#4, keyq := [9#4] }) (fun t =>
      t.reg 3#4 == 9#8 && t.keyq == [] && t.waiting == none && t.pc == 0x200#16) = true := by decide
theorem test_ldVxDt : runs 0xF207 { State.reset with dt := 0x1E#8 } (fun t => t.reg 2#4 == 0x1E#8) = true := by decide
theorem test_ldDtVx : runs 0xF215 (regs [(2#4, 60#8)]) (fun t => t.dt == 60#8) = true := by decide
theorem test_ldStVx :
    runs 0xF218 { State.reset with st := 7#8 } (fun t => t.st == 0#8 && !t.soundActive && t.outputs == []) = true := by decide
theorem test_tickDelay :
    isNext (step { State.reset with dt := 3#8, schedule := [.tickDelay] }) (fun t => t.dt == 2#8 && t.schedule == []) = true ∧
    isNext (step { State.reset with st := 5#8, schedule := [.tickDelay] }) (fun t => t.dt == 0#8 && t.st == 5#8) = true := by
  decide
theorem test_tickSound :
    isNext (step { State.reset with st := 1#8, schedule := [.tickSound] }) (fun t =>
      t.st == 0#8 && !t.soundActive && t.outputs == [.soundStop]) = true ∧
    isNext (step { State.reset with st := 2#8, schedule := [.tickSound] }) (fun t =>
      t.st == 1#8 && t.soundActive && t.outputs == []) = true := by decide
theorem test_keyPush :
    isNext (step { State.reset with keyq := [1#4], schedule := [.keyPush 3#4] }) (fun t => t.keyq == [1#4, 3#4]) = true := by
  decide
theorem test_sample :
    isNext (step { State.reset with schedule := [.sample] }) (fun t => t.outputs.length == 1 && t.pc == 0x200#16) = true := by
  decide

/-- The error codes of R118 and the report's word (R136). -/
theorem test_error_report :
    (Fault.loadError 3585).code = (1, none) ∧ (Fault.decodeError 0#16).code = (2, none) ∧
    (Fault.boundsError (.fetch 0)).code = (3, some 1) ∧ (Fault.boundsError .stackOverflow).code = (3, some 5) ∧
    reportWord 0x81AF#16 = ['8', '1', 'A', 'F'] := by decide

/-! ### Witnesses: states and operands that meet each statement's hypotheses, each clause at its boundary -/

/-- The reset state with `I` at an address. -/
def atI (a : Word) : State := { State.reset with i := a }

/-- The reset state with a list of turns. -/
def turns (l : List Turn) : State := { State.reset with schedule := l }

/-- An engine halted by a decode error, with a list of turns. -/
def stopped (l : List Turn) : State := { turns l with halted := .halted (.decodeError 0#16) }

/-- The first error of R119's table in each class, each on a fetching CPU. -/
def faulting (w : Nat) (a : Word) : State := { ready w with i := a }

theorem test_witness_DecoderLaws :
    decodeWord 0x5127#16 = .ok (.seReg 1#4 2#4) ∧ fieldK 0x5127#16 = 0x5#4 ∧
    decodeWord 0x9127#16 = .ok (.sneReg 1#4 2#4) ∧ fieldK 0x9127#16 = 0x9#4 ∧
    decodeWord 0xF733#16 = .ok (.ldB 7#4) ∧ fieldK 0xF733#16 ≠ 0x5#4 ∧ fieldK 0xF733#16 ≠ 0x9#4 := by decide

theorem test_witness_OpcodeMapSelectsOneRow :
    decodeWord 0x812E#16 = .ok (.shl 1#4 2#4) ∧ (Instr.shl 7#4 7#4).row.selects 0x812E#16 = true := by decide

theorem test_witness_NibbleExtraction : 1 ≤ 1 ∧ 1 ≤ 4 ∧ 4 ≤ 4 ∧ (nib 0xABCD#16 1 4).toNat = 0xABCD ∧
    (nib 0xABCD#16 2 3).toNat = 0xBC := by decide

theorem test_witness_Selects :
    0x81A5#16 &&& 0xF00F#16 = 0x8005#16 ∧ 0xF765#16 &&& 0xF0FF#16 = 0xF065#16 ∧ 0x1FFF#16 &&& 0xF000#16 = 0x1000#16 ∧
    0x00E0#16 &&& 0xFFFF#16 = 0x00E0#16 := by decide

theorem test_witness_FetchIsBigEndian :
    ({ State.reset with pc := 0xFFE#16 } : State).pc.toNat ≤ 0xFFE ∧
    0xFFE < ({ State.reset with pc := 0xFFF#16 } : State).pc.toNat := by decide

theorem test_witness_StepRunsDecodedInstruction :
    (ready 0x612A).Fetching ∧ (ready 0x612A).pc.toNat ≤ 0xFFE ∧
    decodeBytes [(ready 0x612A).peek 0x200, (ready 0x612A).peek 0x201] = .ok (.ldByte 1#4 0x2A#8, []) ∧
    isNext (exec (.ldByte 1#4 0x2A#8) (ready 0x612A).handler) (fun t => t.reg 1#4 == 0x2A#8) = true ∧
    (ready 0x00EE).Fetching ∧ isFault (exec .ret (ready 0x00EE).handler) (.boundsError .stackUnderflow) = true := by decide

theorem test_witness_FetchErrorHalts :
    ({ State.reset with pc := 0xFFF#16 } : State).Fetching ∧ 0xFFE < ({ State.reset with pc := 0xFFF#16 } : State).pc.toNat := by
  decide

theorem test_witness_IllegalWordHalts :
    (ready 0xF2FF).Fetching ∧ (ready 0xF2FF).pc.toNat ≤ 0xFFE ∧
    (0xF2FF#16).toNat = ((ready 0xF2FF).peek 0x200).toNat * 256 + ((ready 0xF2FF).peek 0x201).toNat ∧
    wordIllegal 0xF2FF#16 = true := by decide

theorem test_witness_StackErrorsHalt :
    (ready 0x00EE).Fetching ∧ (ready 0x00EE).stack = [] ∧
    decodeWord (bigEndian ((ready 0x00EE).peek 0x200) ((ready 0x00EE).peek 0x201)) = .ok .ret ∧
    ({ ready 0x2300 with stack := fullStack } : State).Fetching ∧
    decodeWord (bigEndian ((ready 0x2300).peek 0x200) ((ready 0x2300).peek 0x201)) = .ok (.call 0x300#12) ∧
    ({ ready 0x2300 with stack := fullStack } : State).params.stackDepth = some fullStack.length := by decide

theorem test_witness_MemoryErrorsHalt_store :
    (faulting 0xF033 0xFFE#16).Fetching ∧
    decodeWord (bigEndian ((faulting 0xF033 0xFFE#16).peek 0x200) ((faulting 0xF033 0xFFE#16).peek 0x201)) = .ok (.ldB 0#4) ∧
    raisedBy (.ldB 0#4) (faulting 0xF033 0xFFE#16).handler = some (.boundsError (.memWrite 0x1000)) ∧
    decodeWord (bigEndian ((faulting 0xF155 0xFFF#16).peek 0x200) ((faulting 0xF155 0xFFF#16).peek 0x201)) =
      .ok (.storeRegs 1#4) ∧
    raisedBy (.storeRegs 1#4) (faulting 0xF155 0xFFF#16).handler = some (.boundsError (.memWrite 0x1000)) := by decide

theorem test_witness_MemoryErrorsHalt_read :
    (faulting 0xFF65 0xFF1#16).Fetching ∧
    decodeWord (bigEndian ((faulting 0xFF65 0xFF1#16).peek 0x200) ((faulting 0xFF65 0xFF1#16).peek 0x201)) =
      .ok (.loadRegs 0xF#4) ∧
    raisedBy (.loadRegs 0xF#4) (faulting 0xFF65 0xFF1#16).handler = some (.boundsError (.memRead 0x1000)) ∧
    decodeWord (bigEndian ((faulting 0xD01F 0xFF2#16).peek 0x200) ((faulting 0xD01F 0xFF2#16).peek 0x201)) =
      .ok (.drw 0#4 1#4 0xF#4) ∧
    raisedBy (.drw 0#4 1#4 0xF#4) (faulting 0xD01F 0xFF2#16).handler = some (.boundsError (.memRead 0x1000)) := by decide

/-- R119's conditions on both sides of their boundary, and `DRW` with no rows. -/
theorem test_witness_ErrorsExactly :
    raisedBy (.ldB 0#4) (atI 0xFFD#16) = none ∧ raisedBy (.storeRegs 0#4) (atI 0xFFF#16) = none ∧
    raisedBy (.loadRegs 0xF#4) (atI 0xFF0#16) = none ∧ raisedBy (.drw 0#4 1#4 0xF#4) (atI 0xFF1#16) = none ∧
    raisedBy (.drw 0#4 1#4 0#4) (atI 0xFFFF#16) = none ∧
    raisedBy (.drw 0#4 1#4 1#4) (atI 0x2000#16) = some (.boundsError (.memRead 0x2000)) := by decide

theorem test_witness_HaltedIsTerminal :
    (stopped []).halted = .halted (.decodeError 0#16) ∧ (stopped []).CpuNext ∧
    ∃ t, step (stopped [.tickDelay]) = .next t := ⟨rfl, by decide, _, rfl⟩

theorem test_witness_InvariantKept : State.reset.Inv ∧ ∃ t, step State.reset = .next t := by
  refine ⟨⟨by decide, by decide, by decide, ?_, by decide, by decide, by decide⟩, _, rfl⟩
  intro a h; cases h

/-- A state at the invariant's bounds: a full stack, PC at its highest, a held CPU. -/
theorem test_witness_InvariantKept_bounds :
    ({ State.reset with stack := fullStack, pc := 0x10FE#16, waiting := some 3#4 } : State).Inv := by
  refine ⟨by decide, by decide, by decide, ?_, by decide, by decide, by decide⟩
  intro a h
  obtain rfl : a = 0x202#16 := List.eq_of_mem_replicate h
  decide

theorem test_witness_ParametersKept : ∃ t, step (ready 0x612A) = .next t := ⟨_, rfl⟩

/-- A flag-writing instruction, a block load up to `VF`, and an ordinary destination. -/
theorem test_witness_RegisterWriters :
    (∃ t, exec (.addReg regF 1#4) State.reset = .next t) ∧ (∃ t, exec (.loadRegs regF) State.reset = .next t) ∧
    (∃ t, exec (.ldByte 3#4 7#8) State.reset = .next t) ∧
    writesFlag (.addReg 0#4 1#4) = true ∧ destination (.addReg 0#4 1#4) regF = false ∧
    writesFlag (.cls) = false ∧ destination .cls regF = false ∧ destination (.loadRegs 3#4) 4#4 = false := by
  refine ⟨⟨_, rfl⟩, ⟨_, rfl⟩, ⟨_, rfl⟩, ?_⟩
  decide

theorem test_witness_EachPieceHasItsWriters : ∃ t, exec (.call 0x300#12) State.reset = .next t := ⟨_, rfl⟩

theorem test_witness_ReturnPopsPc :
    ({ State.reset with stack := [42#16, 43#16] } : State).stack = [42#16] ++ [43#16] ∧ State.reset.stack = [] := by decide

theorem test_witness_CallPushesPc :
    State.reset.params.stackDepth ≠ some State.reset.stack.length ∧
    ({ State.reset with stack := fullStack.tail } : State).params.stackDepth ≠ some fullStack.tail.length ∧
    State.reset.params.stackDepth = some fullStack.length := by decide

theorem test_witness_ReturnMatchesCall :
    ∃ t, exec (.call 0x300#12) State.reset = .next t ∧ t.stack = t.stack := ⟨_, rfl, rfl⟩

theorem test_witness_ShiftMovesOneBit :
    (regs [(1#4, 0xAA#8), (2#4, 3#8)]).reg 1#4 = 0xAA#8 ∧ Params.default.shiftSrc = .x ∧
    ({ regs [(1#4, 0xAA#8), (2#4, 3#8)] with params := { Params.default with shiftSrc := .y } } : State).reg 2#4 = 3#8 := by
  decide

theorem test_witness_GlyphRowsAtIndex :
    ((regs [(0#4, 0xF#8)]).reg 0#4).toNat ≤ 15 ∧
    ∀ a, (regs [(0#4, 0xF#8)]).peek a = (State.created (regs [(0#4, 0xF#8)]).params).peek a := ⟨by decide, fun _ => rfl⟩

theorem test_witness_DecimalStore :
    (atI 0xFFD#16).i.toNat + 2 ≤ 0xFFF ∧ 0xFFF < (atI 0xFFE#16).i.toNat + 2 := by decide

theorem test_witness_RegisterStore :
    (atI 0xFFF#16).i.toNat + (0#4).toNat ≤ 0xFFF ∧ (atI 0xFF0#16).i.toNat + (0xF#4).toNat ≤ 0xFFF ∧
    0xFFF < (atI 0xFFF#16).i.toNat + (1#4).toNat := by decide

theorem test_witness_RegisterLoadBlock :
    (atI 0xFF0#16).i.toNat + (0xF#4).toNat ≤ 0xFFF ∧ 0xFFF < (atI 0xFF1#16).i.toNat + (0xF#4).toNat ∧
    (2#4).toNat < (3#4).toNat := by decide

theorem test_witness_StoreThenLoadRestores :
    ∃ t, exec (.storeRegs 0xF#4) (atI 0x300#16) = .next t ∧ t.SameBytes t ∧ t.i = (atI 0x300#16).i :=
  ⟨_, rfl, fun _ => rfl, rfl⟩

theorem test_witness_StoreIsSeenByFetch :
    ∃ t u : State, exec (.storeRegs 1#4) (atI 0x208#16) = .next t ∧ t.SameBytes u ∧ (1#4).toNat = (0#4).toNat + 1 ∧
      (1#4).toNat ≤ (1#4).toNat ∧ u.pc.toNat = (atI 0x208#16).i.toNat + (0#4).toNat :=
  ⟨_, { atI 0x208#16 with pc := 0x208#16 }, rfl, fun _ => rfl, rfl, Nat.le_refl _, rfl⟩

/-- No rows with `I` far outside, one row at the last address, and a row that does not fit; a covered pixel that
wraps and one that is not covered. -/
theorem test_witness_DrawTogglesCoveredPixels :
    (0#4 = 0#4 ∨ (atI 0xFFFF#16).i.toNat + (0#4).toNat - 1 ≤ 0xFFF) ∧
    (atI 0xFFF#16).i.toNat + (1#4).toNat - 1 ≤ 0xFFF ∧
    (2#4 ≠ 0#4 ∧ 0xFFF < (atI 0xFFF#16).i.toNat + (2#4).toNat - 1) ∧
    covers [0x01#8] 60 31 3 31 ∧ ¬ covers [0x01#8] 60 31 60 31 := by
  refine ⟨by decide, by decide, by decide, ⟨0, 7, by decide, by decide, by decide, by decide, by decide⟩, ?_⟩
  rintro ⟨r, c, hr, hc, hb, hx, -⟩
  obtain rfl : r = 0 := by simpa using hr
  obtain rfl : c = 0 := by omega
  exact absurd hb (by decide)

theorem test_witness_DrawTwiceRestores :
    ∃ t, exec (.drw 0#4 1#4 5#4) (atI 0x1B0#16) = .next t ∧ t.i = (atI 0x1B0#16).i ∧
      t.reg 0#4 = (atI 0x1B0#16).reg 0#4 ∧ t.reg 1#4 = (atI 0x1B0#16).reg 1#4 ∧ (atI 0x1B0#16).SameBytes t :=
  ⟨_, rfl, rfl, rfl, rfl, fun _ => rfl⟩

/-- A queue whose front equals `Vx`, one whose front differs (by a bit above the low nibble), and an empty one. -/
theorem test_witness_keySkips :
    ({ regs [(1#4, 5#8)] with keyq := [5#4, 7#4] } : State).keyq = 5#4 :: [7#4] ∧
    (5#4).toNat = ((regs [(1#4, 5#8)]).reg 1#4).toNat ∧
    (5#4).toNat ≠ ((regs [(1#4, 0x15#8)]).reg 1#4).toNat ∧ State.reset.keyq = [] := by decide

theorem test_witness_HeldCpuWaitsForKey :
    (turns [.cpu]).CpuNext ∧ (turns []).CpuNext ∧
    ({ turns [] with waiting := some 3#4, keyq := [9#4, 2#4] } : State).waiting = some 3#4 ∧
    ({ turns [] with waiting := some 3#4 } : State).keyq = [] ∧ (turns []).halted = .running := by decide

theorem test_witness_KeyWaitReturnsPushedKey :
    ∃ t, exec (.ldVxK 3#4) (turns [.keyPush 9#4, .cpu, .sample]) = .next t ∧
      (turns [.keyPush 9#4, .cpu, .sample]).keyq = [] ∧ (turns [.keyPush 9#4, .cpu, .sample]).halted = .running ∧
      (turns [.keyPush 9#4, .cpu, .sample]).params.keyqDepth ≠ some 0 ∧
      (turns [.keyPush 9#4, .cpu, .sample]).schedule = .keyPush 9#4 :: .cpu :: [.sample] :=
  ⟨_, rfl, rfl, rfl, by decide, rfl⟩

/-- One state per agent; the sound timer at 0, 1 and above; a queue with room and a full one. -/
theorem test_witness_agents :
    (turns [.tickDelay]).schedule = .tickDelay :: [] ∧ (turns [.tickSound]).schedule = .tickSound :: [] ∧
    (turns [.keyPush 3#4]).schedule = .keyPush 3#4 :: [] ∧ (turns [.sample]).schedule = .sample :: [] ∧
    Turn.sample ≠ .cpu ∧ State.reset.st.toNat ≠ 1 ∧ ({ State.reset with st := 1#8 } : State).st.toNat = 1 ∧
    1 < ({ State.reset with st := 255#8 } : State).st.toNat := by decide

theorem test_witness_KeyPushAppends :
    (∀ d, State.reset.params.keyqDepth = some d → State.reset.keyq.length < d) ∧
    ∃ d, ({ State.reset with params := { Params.default with keyqDepth := some 1 }, keyq := [3#4] } : State).params.keyqDepth =
      some d ∧ d ≤ [3#4].length := by
  refine ⟨fun d h => ?_, 1, rfl, by decide⟩
  cases h

theorem test_witness_DelayTickCommutes :
    (∀ x, Instr.cls ≠ .ldVxDt x) ∧ (∀ x, Instr.cls ≠ .ldDtVx x) ∧ ∃ t, exec .cls State.reset = .next t := by
  refine ⟨?_, ?_, _, rfl⟩ <;> intro x h <;> cases h

/-- The font's bounds under both readings of `FONT_BASE`, and glyph F's last row. -/
theorem test_witness_CreationIsZeroFilled :
    Params.default.fontBase = 0x1B0 ∧ ({ Params.default with fontPlace := .topOfMemory } : Params).fontBase = 0xFB0 ∧
    15 < 16 ∧ 4 < 5 ∧ Params.default.fontBase + 5 * 15 + 4 = 0x1FF ∧ 0x1AF < Params.default.fontBase ∧
    Params.default.fontBase + 80 ≤ 0x200 := by decide

theorem test_witness_LoadCopiesImage :
    3584 < (List.replicate 3585 (0#8 : Byte)).length ∧ (List.replicate 3584 (0#8 : Byte)).length ≤ 3584 ∧
    ([] : List Byte).length ≤ 3584 := by
  rw [List.length_replicate, List.length_replicate]; decide

theorem test_witness_BootRunsImage :
    2 ≤ [0x12#8, 0x00#8].length ∧ [0x12#8, 0x00#8].length ≤ 3584 := by decide

/-- Halted by the illegal word before a self-jump, PC at the jump (the false variant of P4): no end state (R120, D33). -/
theorem test_halted_not_end :
    ¬ ({ bytes State.reset 0x20A [0x12#8, 0x0A#8] with
        pc := 0x20A#16, halted := .halted (.decodeError 0#16) } : State).AtEnd := fun h => nomatch h.1

/-- Held in `LD V0, K` before a self-jump: no end state (R112, D25). -/
theorem test_held_not_end :
    ¬ ({ bytes State.reset 0x20A [0x12#8, 0x0A#8] with pc := 0x20A#16, waiting := some 0#4 } : State).AtEnd :=
  fun h => nomatch h.2.1

/-- `JP 0x200` at 0x200 is an end state, reached after no step; the CPU is next (T3). -/
theorem test_witness_EndStateStays :
    (ready 0x1200).AtEnd ∧ (ready 0x1200).CpuNext ∧ (ready 0x1200).EndsAfter 0 (ready 0x1200) := by
  have h : (ready 0x1200).AtEnd := ⟨by decide, by decide, by decide, 0x200#12, by decide, by decide⟩
  exact ⟨h, by decide, rfl, h, fun k u hk => absurd hk (Nat.not_lt_zero k)⟩

/-- `JP 0x300` at 0x200 is no end state; the jump to itself at 0x300 is one, first reached after one step. -/
theorem test_witness_EndStateStays_step :
    ∃ t, (bytes (ready 0x1300) 0x300 [0x13#8, 0x00#8]).EndsAfter 1 t := by
  refine ⟨_, rfl, ⟨by decide, by decide, by decide, 0x300#12, by decide, by decide⟩, fun k u hk hu => ?_⟩
  obtain rfl : k = 0 := by omega
  cases hu
  rintro ⟨-, -, -, nnn, hn, hd⟩
  cases hd
  exact absurd hn (by decide)

/-- A halted, a held and a halting state (P6: the empty program halts after one step). -/
theorem test_witness_EndStateStays_halted :
    (∃ e, (stopped []).halted = .halted e) ∧ (∃ x, ({ turns [] with waiting := some 3#4 } : State).waiting = some x) ∧
    ∃ t e, State.after 1 State.reset = some t ∧ t.halted = .halted e ∧ State.after 0 State.reset = some State.reset :=
  ⟨⟨_, rfl⟩, ⟨_, rfl⟩, _, _, rfl, rfl, rfl⟩

end Sys2Proof.Tests
end

section
/-!
Nibble-range extraction (rule R8): `nib` as arithmetic on the word's value, and the laws that follow from it.
-/
namespace Sys2Proof

/-- `nib` drops the nibbles below `lo` and keeps `hi - lo + 1` of the rest (R8). -/
theorem nib_toNat (w : Word) (lo hi : Nat) :
    (nib w lo hi).toNat = w.toNat / 2 ^ (4 * lo - 4) % 2 ^ (4 * (hi - lo + 1)) := by
  rw [nib, BitVec.extractLsb'_toNat, Nat.shiftRight_eq_div_pow]

/-- The range of all four nibbles is the word (R8). -/
theorem nib_all_toNat (w : Word) : (nib w 1 4).toNat = w.toNat := by
  calc (nib w 1 4).toNat = w.toNat / 2 ^ 0 % 2 ^ 16 := nib_toNat w 1 4
    _ = w.toNat := by rw [pow_zero, Nat.div_one, Nat.mod_eq_of_lt w.isLt]

/-- The four single nibbles, each at its weight, sum to the word (R8). -/
theorem nib_singles_sum (w : Word) :
    (nib w 4 4).toNat * 4096 + (nib w 3 3).toNat * 256 + (nib w 2 2).toNat * 16 + (nib w 1 1).toNat = w.toNat := by
  have h4 : (nib w 4 4).toNat = w.toNat / 4096 % 16 := nib_toNat w 4 4
  have h3 : (nib w 3 3).toNat = w.toNat / 256 % 16 := nib_toNat w 3 3
  have h2 : (nib w 2 2).toNat = w.toNat / 16 % 16 := nib_toNat w 2 2
  have h1 : (nib w 1 1).toNat = w.toNat / 1 % 16 := nib_toNat w 1 1
  have hw : w.toNat < 65536 := w.isLt
  omega

/-- Settles O6: the definition of R8 is `nib_toNat`, which needs no bound on the range; the laws follow from it. -/
theorem nibbleExtraction : Obligations.NibbleExtraction :=
  ⟨fun w lo hi _ _ _ => nib_toNat w lo hi, nib_all_toNat, nib_singles_sum, by decide, by decide⟩

end Sys2Proof
end

section
/-!
Control transfer (40_control.md, rules R64 to R73): which words select each instruction, what it does to PC and the
stack, and the six statements, each assembled from these.
-/
namespace Sys2Proof.Machine

/-! ### Which words select them (R54) -/

theorem selects_jp : Selects 0x1000#16 0xF000#16 (fun w => .jp (fieldNNN w)) :=
  selects_of_key _ _ _ (by decide) fun w (h : fieldK w = 0x1#4) => by simp [decodeWord, h]

theorem selects_call : Selects 0x2000#16 0xF000#16 (fun w => .call (fieldNNN w)) :=
  selects_of_key _ _ _ (by decide) fun w (h : fieldK w = 0x2#4) => by simp [decodeWord, h]

theorem selects_seByte : Selects 0x3000#16 0xF000#16 (fun w => .seByte (fieldX w) (fieldNN w)) :=
  selects_of_key _ _ _ (by decide) fun w (h : fieldK w = 0x3#4) => by simp [decodeWord, h]

theorem selects_sneByte : Selects 0x4000#16 0xF000#16 (fun w => .sneByte (fieldX w) (fieldNN w)) :=
  selects_of_key _ _ _ (by decide) fun w (h : fieldK w = 0x4#4) => by simp [decodeWord, h]

/-- The mask keeps the key only, so the low nibble is free (R55). -/
theorem selects_seReg : Selects 0x5000#16 0xF000#16 (fun w => .seReg (fieldX w) (fieldY w)) :=
  selects_of_key _ _ _ (by decide) fun w (h : fieldK w = 0x5#4) => by simp [decodeWord, h]

/-- The mask keeps the key only, so the low nibble is free (R55). -/
theorem selects_sneReg : Selects 0x9000#16 0xF000#16 (fun w => .sneReg (fieldX w) (fieldY w)) :=
  selects_of_key _ _ _ (by decide) fun w (h : fieldK w = 0x9#4) => by simp [decodeWord, h]

theorem selects_jpV0 : Selects 0xB000#16 0xF000#16 (fun w => .jpV0 (fieldNNN w)) :=
  selects_of_key _ _ _ (by decide) fun w (h : fieldK w = 0xB#4) => by simp [decodeWord, h]

theorem selects_ret : Selects 0x00EE#16 0xFFFF#16 (fun _ => .ret) := selects_of_word _ _ (by decide)

/-! ### Jump targets (R48, R65, R69) -/

@[simp] theorem addrOperand_toNat (nnn : Addr) : (addrOperand nnn).toNat = nnn.toNat :=
  BitVec.toNat_setWidth_of_le (by decide)

@[simp] theorem State.regWord_toNat (s : State) (x : Reg) : (s.regWord x).toNat = (s.reg x).toNat :=
  BitVec.toNat_setWidth_of_le (by decide)

/-- The sum of JP V0 is at most 0x10FE, so the 16-bit addition is exact (R69). -/
theorem addrOperand_add_regWord_toNat (nnn : Addr) (s : State) (x : Reg) :
    (addrOperand nnn + s.regWord x).toNat = nnn.toNat + (s.reg x).toNat := by
  have hn : nnn.toNat < 4096 := nnn.isLt
  have hr : (s.reg x).toNat < 256 := (s.reg x).isLt
  rw [BitVec.toNat_add, addrOperand_toNat, State.regWord_toNat]
  exact Nat.mod_eq_of_lt (by omega)

/-- A jump changes PC only; the bytes of memory are part of what it leaves. -/
theorem State.setPc_frame (s : State) (v : Word) :
    s.setPc v = { s with pc := (s.setPc v).pc } ∧ s.SameBytes (s.setPc v) :=
  ⟨rfl, s.setPc_peek v⟩

/-! ### RET and CALL (R66, R68) -/

theorem exec_ret_snoc (s : State) (rest : List Word) (v : Word) (h : s.stack = rest ++ [v]) :
    exec .ret s = .next { s with pc := v, stack := rest } := by
  simp [exec, execRet, h]

theorem exec_ret_nil (s : State) (h : s.stack = []) : exec .ret s = .fault (.boundsError .stackUnderflow) := by
  simp [exec, execRet, h]

theorem exec_call_room (nnn : Addr) (s : State) (h : s.params.stackDepth ≠ some s.stack.length) :
    exec (.call nnn) s = .next ((s.push s.pc).setPc (addrOperand nnn)) :=
  if_neg (mt s.stackFull_iff.1 h)

theorem exec_call_full (nnn : Addr) (s : State) (h : s.params.stackDepth = some s.stack.length) :
    exec (.call nnn) s = .fault (.boundsError .stackOverflow) :=
  if_pos (s.stackFull_iff.2 h)

/-! ### Skips (R64, R70 to R73) -/

/-- A skip on equality, its test as a proposition. -/
theorem State.skipIf_beq (s : State) (a b : Byte) :
    s.skipIf (a == b) = { s with pc := if a = b then s.pc + 2#16 else s.pc } := by
  simp [State.skipIf_eq]

/-- A skip on inequality, its test as a proposition. -/
theorem State.skipIf_bne (s : State) (a b : Byte) :
    s.skipIf (a != b) = { s with pc := if a ≠ b then s.pc + 2#16 else s.pc } := by
  simp [State.skipIf_eq]

/-! ### The statements -/

/-- Settles O20: JP is one write of PC. -/
theorem jumpSetsPc : Obligations.JumpSetsPc :=
  ⟨selects_jp, fun nnn s => ⟨s.setPc (addrOperand nnn), rfl, addrOperand_toNat nnn, s.setPc_frame _⟩⟩

/-- Settles O21: the two cases of the stack. -/
theorem returnPopsPc : Obligations.ReturnPopsPc :=
  ⟨selects_ret, fun rest v s h => exec_ret_snoc s rest v h, exec_ret_nil⟩

/-- Settles O22: room on the stack or not, by `State.stackFull_iff`. -/
theorem callPushesPc : Obligations.CallPushesPc :=
  ⟨selects_call, fun nnn s h => ⟨_, exec_call_room nnn s h, addrOperand_toNat nnn, rfl⟩, exec_call_full⟩

/-- Settles O24: one write of PC, with a sum that does not wrap. -/
theorem jumpAddsV0 : Obligations.JumpAddsV0 :=
  ⟨selects_jpV0, fun nnn s =>
    ⟨s.setPc (addrOperand nnn + s.regWord 0x0#4), rfl, addrOperand_add_regWord_toNat nnn s _, s.setPc_frame _⟩⟩

/-- Settles O25: both are skips, on a register and a constant. -/
theorem skipOnConstant : Obligations.SkipOnConstant :=
  ⟨selects_seByte, selects_sneByte, fun x nn s =>
    ⟨congrArg _ (s.skipIf_beq (s.reg x) nn), congrArg _ (s.skipIf_bne (s.reg x) nn)⟩⟩

/-- Settles O26: both are skips, on two registers. -/
theorem skipOnRegister : Obligations.SkipOnRegister :=
  ⟨selects_seReg, selects_sneReg, fun x y s =>
    ⟨congrArg _ (s.skipIf_beq (s.reg x) (s.reg y)), congrArg _ (s.skipIf_bne (s.reg x) (s.reg y))⟩⟩

end Sys2Proof.Machine
end

section
/-!
Register load, arithmetic, logic and shifts (41_alu.md, rules R75 to R90): which words select each instruction, the
arithmetic on the values of the bytes, what a write of a register or of a result with its flag leaves, and the six
statements, each assembled from these.
-/
namespace Sys2Proof.Machine

/-! ### Which words select them (R54) -/

theorem selects_ldByte : Selects 0x6000#16 0xF000#16 (fun w => .ldByte (fieldX w) (fieldNN w)) :=
  selects_of_key _ _ _ (by decide) fun w (h : fieldK w = 0x6#4) => by simp [decodeWord, h]

theorem selects_addByte : Selects 0x7000#16 0xF000#16 (fun w => .addByte (fieldX w) (fieldNN w)) :=
  selects_of_key _ _ _ (by decide) fun w (h : fieldK w = 0x7#4) => by simp [decodeWord, h]

/-- A word of group 8 is decoded by its low nibble (R49, R51). -/
theorem decodeWord_group8 {w : Word} (h : fieldK w = 0x8#4) : decodeWord w = decodeGroup8 w := by
  simp [decodeWord, h]

/-- A pattern of group 8: it is enough that every word with that low nibble decodes so (R51). -/
theorem selects_of_group8 (bits : Word) (f : Word → Instr) (hk : fieldK bits = 0x8#4)
    (hd : ∀ w, fieldN w = fieldN bits → decodeGroup8 w = .ok (f w)) : Selects bits 0xF00F#16 f :=
  selects_of_keyN _ _ _ (by decide) (by decide) fun w h hn => (decodeWord_group8 (h.trans hk)).trans (hd w hn)

theorem selects_ldReg : Selects 0x8000#16 0xF00F#16 (fun w => .ldReg (fieldX w) (fieldY w)) :=
  selects_of_group8 _ _ (by decide) fun w (h : fieldN w = 0x0#4) => by simp [decodeGroup8, h]

theorem selects_orReg : Selects 0x8001#16 0xF00F#16 (fun w => .orReg (fieldX w) (fieldY w)) :=
  selects_of_group8 _ _ (by decide) fun w (h : fieldN w = 0x1#4) => by simp [decodeGroup8, h]

theorem selects_andReg : Selects 0x8002#16 0xF00F#16 (fun w => .andReg (fieldX w) (fieldY w)) :=
  selects_of_group8 _ _ (by decide) fun w (h : fieldN w = 0x2#4) => by simp [decodeGroup8, h]

theorem selects_xorReg : Selects 0x8003#16 0xF00F#16 (fun w => .xorReg (fieldX w) (fieldY w)) :=
  selects_of_group8 _ _ (by decide) fun w (h : fieldN w = 0x3#4) => by simp [decodeGroup8, h]

theorem selects_addReg : Selects 0x8004#16 0xF00F#16 (fun w => .addReg (fieldX w) (fieldY w)) :=
  selects_of_group8 _ _ (by decide) fun w (h : fieldN w = 0x4#4) => by simp [decodeGroup8, h]

theorem selects_sub : Selects 0x8005#16 0xF00F#16 (fun w => .sub (fieldX w) (fieldY w)) :=
  selects_of_group8 _ _ (by decide) fun w (h : fieldN w = 0x5#4) => by simp [decodeGroup8, h]

theorem selects_shr : Selects 0x8006#16 0xF00F#16 (fun w => .shr (fieldX w) (fieldY w)) :=
  selects_of_group8 _ _ (by decide) fun w (h : fieldN w = 0x6#4) => by simp [decodeGroup8, h]

theorem selects_subn : Selects 0x8007#16 0xF00F#16 (fun w => .subn (fieldX w) (fieldY w)) :=
  selects_of_group8 _ _ (by decide) fun w (h : fieldN w = 0x7#4) => by simp [decodeGroup8, h]

theorem selects_shl : Selects 0x800E#16 0xF00F#16 (fun w => .shl (fieldX w) (fieldY w)) :=
  selects_of_group8 _ _ (by decide) fun w (h : fieldN w = 0xE#4) => by simp [decodeGroup8, h]

/-! ### Arithmetic and the bits shifted out (R75, R84 to R88) -/

@[simp] theorem sumByte_toNat (a b : Byte) : (sumByte a b).toNat = (a.toNat + b.toNat) % 256 :=
  BitVec.toNat_ofNat ..

/-- The 256 that `diffByte` adds keeps the natural subtraction exact and goes with the modulus. -/
theorem diffByte_toNat (a b : Byte) : ((diffByte a b).toNat : Int) = (a.toNat - b.toNat : Int) % 256 := by
  have hb : b.toNat < 256 := b.isLt
  have hd : (diffByte a b).toNat = (a.toNat + 256 - b.toNat) % 256 := BitVec.toNat_ofNat ..
  omega

theorem shiftRight_one_toNat (v : Byte) : (v >>> 1).toNat = v.toNat / 2 := by
  rw [BitVec.toNat_ushiftRight, Nat.shiftRight_eq_div_pow, pow_one]

theorem shiftLeft_one_toNat (v : Byte) : (v <<< 1).toNat = v.toNat * 2 % 256 := by
  rw [BitVec.toNat_shiftLeft, Nat.shiftLeft_eq, pow_one]

/-- Bit 0 as the parity of the value (R86). -/
theorem lowBit_eq (v : Byte) : lowBit v = decide (v.toNat % 2 = 1) := Nat.testBit_zero v.toNat

/-- Bit 7 as the upper half of the values (R88). -/
theorem highBit_eq (v : Byte) : highBit v = decide (128 ≤ v.toNat) := by
  calc highBit v = v.msb := (BitVec.msb_eq_getLsbD_last v).symm
    _ = decide (128 ≤ v.toNat) := BitVec.msb_eq_decide v

/-! ### What a write leaves (R15, R79, R80) -/

/-- An ordinary destination's write changes that register only. -/
theorem State.setReg_frame (s : State) (x : Reg) (v : Byte) :
    s.setReg x v = { s with regs := (s.setReg x v).regs } ∧ s.SameRegsBut (s.setReg x v) [x] :=
  ⟨s.setReg_eq x v, s.setReg_sameRegsBut x v⟩

/-- A result with its flag, the flag read as a proposition: both writes in their order (R80), and nothing else. -/
theorem State.setRegFlag_frame (s : State) (x : Reg) (v : Byte) {b : Bool} {p : Prop} [Decidable p]
    (h : b = decide p) :
    s.ResultAndFlag (s.setRegFlag x v b) x v (flagIs p) ∧
      s.setRegFlag x v b = { s with regs := (s.setRegFlag x v b).regs } ∧
      s.SameRegsBut (s.setRegFlag x v b) [x, regF] := by
  obtain ⟨hflag, hrest⟩ := s.setRegFlag_spec x v b
  have hb : flagByte b = flagIs p := by rw [h, flagByte_decide]
  exact ⟨hb ▸ hflag, s.setRegFlag_eq x v b, hrest⟩

/-! ### The statements -/

/-- Settles O27: each is one register write. -/
theorem registerLoads : Obligations.RegisterLoads :=
  ⟨selects_ldByte, selects_ldReg, fun x y nn s =>
    ⟨⟨s.setReg x nn, rfl, s.setReg_reg_self x nn, s.setReg_frame x nn⟩,
      ⟨s.setReg x (s.reg y), rfl, s.setReg_reg_self x (s.reg y), s.setReg_frame x (s.reg y)⟩⟩⟩

/-- Settles O28: one register write, of the narrowed sum. -/
theorem addConstantWraps : Obligations.AddConstantWraps :=
  ⟨selects_addByte, fun x nn s =>
    ⟨s.setReg x (sumByte (s.reg x) nn), rfl, by rw [State.setReg_reg_self, sumByte_toNat], s.setReg_frame x _⟩⟩

/-- Settles O29: each is one register write, of an operation that `BitVec` describes bit by bit. -/
theorem logicIsBitwise : Obligations.LogicIsBitwise := by
  refine ⟨selects_orReg, selects_andReg, selects_xorReg, fun x y s => ⟨?_, ?_, ?_⟩⟩
  · exact ⟨_, rfl, s.setReg_eq x _, s.setReg_sameRegsBut x _, fun k _ => by
      rw [State.setReg_reg_self, BitVec.getLsbD_or]⟩
  · exact ⟨_, rfl, s.setReg_eq x _, s.setReg_sameRegsBut x _, fun k _ => by
      rw [State.setReg_reg_self, BitVec.getLsbD_and]⟩
  · exact ⟨_, rfl, s.setReg_eq x _, s.setReg_sameRegsBut x _, fun k _ => by
      rw [State.setReg_reg_self, BitVec.getLsbD_xor]⟩

/-- Settles O30: the narrowed sum and its carry, written in either order. -/
theorem addSetsCarry : Obligations.AddSetsCarry :=
  ⟨selects_addReg, fun x y s =>
    ⟨_, sumByte (s.reg x) (s.reg y), rfl, sumByte_toNat _ _, s.setRegFlag_frame x _ rfl⟩⟩

/-- Settles O31: SUBN is SUB with the operands exchanged. -/
theorem subtractSetsNoBorrow : Obligations.SubtractSetsNoBorrow :=
  ⟨selects_sub, selects_subn, fun x y s =>
    ⟨⟨_, diffByte (s.reg x) (s.reg y), rfl, diffByte_toNat _ _, s.setRegFlag_frame x _ rfl⟩,
      ⟨_, diffByte (s.reg y) (s.reg x), rfl, diffByte_toNat _ _, s.setRegFlag_frame x _ rfl⟩⟩⟩

/-- Settles O32: the source that `SHIFT_SRC` selects is `State.shiftSource`, shifted one place either way. -/
theorem shiftMovesOneBit : Obligations.ShiftMovesOneBit := by
  refine ⟨selects_shr, selects_shl, fun x y s src h => ?_⟩
  obtain rfl : src = s.shiftSource x y := by
    rw [h, State.shiftSource]
    cases s.params.shiftSrc <;> rfl
  exact ⟨⟨_, s.shiftSource x y >>> 1, rfl, shiftRight_one_toNat _, s.setRegFlag_frame x _ (lowBit_eq _)⟩,
    ⟨_, s.shiftSource x y <<< 1, rfl, shiftLeft_one_toNat _, s.setRegFlag_frame x _ (highBit_eq _)⟩⟩

end Sys2Proof.Machine
end

section
/-!
The index register and the memory instructions (42_index_memory.md, rules R93 to R102): which words select each
instruction, what a block transfer from or to `I` answers inside memory and beyond it, and the four statements, each
assembled from these.
-/
namespace Sys2Proof.Machine

/-! ### Which words select them (R54) -/

theorem selects_ldI : Selects 0xA000#16 0xF000#16 (fun w => .ldI (fieldNNN w)) :=
  selects_of_key _ _ _ (by decide) fun w (h : fieldK w = 0xA#4) => by simp [decodeWord, h]

/-- A word of group F is decoded by its low byte (R49, R52). -/
theorem decodeWord_groupF {w : Word} (h : fieldK w = 0xF#4) : decodeWord w = decodeGroupF w := by
  simp [decodeWord, h]

/-- A pattern of group F: it is enough that every word with that low byte decodes so (R52). -/
theorem selects_of_groupF (bits : Word) (f : Word → Instr) (hk : fieldK bits = 0xF#4)
    (hd : ∀ w, fieldNN w = fieldNN bits → decodeGroupF w = .ok (f w)) : Selects bits 0xF0FF#16 f :=
  selects_of_keyNN _ _ _ (by decide) (by decide) fun w h hn => (decodeWord_groupF (h.trans hk)).trans (hd w hn)

theorem selects_addI : Selects 0xF01E#16 0xF0FF#16 (fun w => .addI (fieldX w)) :=
  selects_of_groupF _ _ (by decide) fun w (h : fieldNN w = 0x1E#8) => by simp [decodeGroupF, h]

theorem selects_ldB : Selects 0xF033#16 0xF0FF#16 (fun w => .ldB (fieldX w)) :=
  selects_of_groupF _ _ (by decide) fun w (h : fieldNN w = 0x33#8) => by simp [decodeGroupF, h]

theorem selects_storeRegs : Selects 0xF055#16 0xF0FF#16 (fun w => .storeRegs (fieldX w)) :=
  selects_of_groupF _ _ (by decide) fun w (h : fieldNN w = 0x55#8) => by simp [decodeGroupF, h]

theorem selects_loadRegs : Selects 0xF065#16 0xF0FF#16 (fun w => .loadRegs (fieldX w)) :=
  selects_of_groupF _ _ (by decide) fun w (h : fieldNN w = 0x65#8) => by simp [decodeGroupF, h]

/-! ### The index register (R94, R95) -/

/-- A write of `I` changes `I` only; the bytes of memory are part of what it leaves. -/
theorem State.setI_frame (s : State) (v : Word) :
    s.setI v = { s with i := (s.setI v).i } ∧ s.SameBytes (s.setI v) :=
  ⟨rfl, s.setI_peek v⟩

/-- The sum of ADD I is taken modulo 2^16 (R95). -/
theorem add_regWord_toNat (v : Word) (s : State) (x : Reg) :
    (v + s.regWord x).toNat = (v.toNat + (s.reg x).toNat) % 65536 := by
  rw [BitVec.toNat_add, State.regWord_toNat]

/-! ### Block stores (R97, R98, R99, R101) -/

/-- A block store that ends inside memory: its bytes in order, and nothing else changes. -/
theorem State.answer_writeBlock_inside (s : State) (a : Nat) (bs : List Byte) (h : a + bs.length ≤ 0x1000) :
    ∃ t, answer (s.writeBlock a bs) = .next t ∧ t = { s with mem := t.mem } ∧
      (∀ k, k < bs.length → t.peek (a + k) = bs.getD k 0#8) ∧
      ∀ b, b < a ∨ a + bs.length ≤ b → t.peek b = s.peek b := by
  obtain ⟨t, hw, hframe, hpeek, -⟩ := (s.writeBlock_spec bs a).1 (.inr h)
  refine ⟨t, congrArg answer hw, hframe, fun k hk => ?_, fun b hb => ?_⟩
  · rw [hpeek, if_pos (by omega), Nat.add_sub_cancel_left]
  · rw [hpeek, if_neg (by omega)]

/-- A block store that reaches above 0xFFF raises the error at its first address there. -/
theorem State.answer_writeBlock_outside (s : State) (a : Nat) (bs : List Byte) (hne : 0 < bs.length)
    (h : 0x1000 < a + bs.length) :
    answer (s.writeBlock a bs) = .fault (.boundsError (.memWrite (max a 0x1000))) :=
  congrArg answer ((s.writeBlock_spec bs a).2 (List.ne_nil_of_length_pos hne) h)

/-- A number no greater than a byte's value fits in a byte, as each decimal digit does (R97). -/
theorem byte_ofNat_toNat {n : Nat} {v : Byte} (h : n ≤ v.toNat) : (BitVec.ofNat 8 n).toNat = n :=
  (BitVec.toNat_ofNat n 8).trans (Nat.mod_eq_of_lt (h.trans_lt v.isLt))

/-- The three digits of LD B, in the order they are stored (R97). -/
theorem decimalDigits_toNat (v : Byte) :
    ((decimalDigits v).getD 0 0#8).toNat = v.toNat / 100 ∧
    ((decimalDigits v).getD 1 0#8).toNat = v.toNat / 10 % 10 ∧
    ((decimalDigits v).getD 2 0#8).toNat = v.toNat % 10 :=
  ⟨byte_ofNat_toNat (Nat.div_le_self ..), byte_ofNat_toNat ((Nat.mod_le ..).trans (Nat.div_le_self ..)),
    byte_ofNat_toNat (Nat.mod_le ..)⟩

/-! ### The block load (R98, R99, R102) -/

/-- Registers loaded from a run of bytes: the first `n` take them in order, the others keep theirs (R102). -/
theorem State.setRegRange_range_reg (s : State) (n : Nat) (f : Nat → Byte) (r : Reg) :
    (s.setRegRange ((List.range n).map f)).reg r = if r.toNat < n then f r.toNat else s.reg r := by
  rw [State.setRegRange_reg, List.length_map, List.length_range]
  split
  · simp [List.getD_eq_getElem?_getD, *]
  · rfl

theorem exec_loadRegs_inside (x : Reg) (s : State) (h : s.i.toNat + x.toNat ≤ 0xFFF) :
    exec (.loadRegs x) s =
      .next (s.setRegRange ((List.range (x.toNat + 1)).map fun k => s.peek (s.i.toNat + k))) := by
  simp only [exec, execLoadRegs, State.base, (s.readBlock_spec (x.toNat + 1) s.i.toNat).1 (.inr (by omega))]

theorem exec_loadRegs_outside (x : Reg) (s : State) (h : 0xFFF < s.i.toNat + x.toNat) :
    exec (.loadRegs x) s = .fault (.boundsError (.memRead (max s.i.toNat 0x1000))) := by
  simp only [exec, execLoadRegs, State.base,
    (s.readBlock_spec (x.toNat + 1) s.i.toNat).2 (Nat.succ_ne_zero _) (by omega)]

/-! ### The statements -/

/-- Settles O34: each is one write of `I`. -/
theorem indexLoadAndAdd : Obligations.IndexLoadAndAdd :=
  ⟨selects_ldI, selects_addI, fun nnn x s =>
    ⟨⟨s.setI (addrOperand nnn), rfl, addrOperand_toNat nnn, s.setI_frame _⟩,
      ⟨s.setI (s.i + s.regWord x), rfl, add_regWord_toNat s.i s x, s.setI_frame _⟩⟩⟩

/-- Settles O37: a block store of the three decimal digits. -/
theorem decimalStore : Obligations.DecimalStore := by
  refine ⟨selects_ldB, fun x s h => ?_, fun x s h => ?_⟩
  · obtain ⟨t, hexec, hframe, hin, hout⟩ :=
      s.answer_writeBlock_inside s.i.toNat (decimalDigits (s.reg x)) (by rw [decimalDigits_length]; omega)
    obtain ⟨hundreds, tens, ones⟩ := decimalDigits_toNat (s.reg x)
    rw [decimalDigits_length] at hin hout
    refine ⟨t, hexec, hframe, ?_, ?_, ?_, fun a ha => hout a (by omega)⟩
    · exact (congrArg _ (hin 0 (by decide))).trans hundreds
    · exact (congrArg _ (hin 1 (by decide))).trans tens
    · exact (congrArg _ (hin 2 (by decide))).trans ones
  · exact s.answer_writeBlock_outside s.i.toNat (decimalDigits (s.reg x)) (by simp)
      (by rw [decimalDigits_length]; omega)

/-- Settles O38: a block store of `V0..VX`, whose byte at place `r` is that register. -/
theorem registerStore : Obligations.RegisterStore := by
  refine ⟨selects_storeRegs, fun x s h => ?_, fun x s h => ?_⟩
  · obtain ⟨t, hexec, hframe, hin, hout⟩ :=
      s.answer_writeBlock_inside s.i.toNat (s.regRange x) (by rw [State.regRange_length]; omega)
    rw [State.regRange_length] at hin hout
    refine ⟨t, hexec, hframe, fun r hr => ?_, fun a ha => hout a (by omega)⟩
    rw [hin r.toNat (by omega), s.regRange_getD x r hr]
  · exact s.answer_writeBlock_outside s.i.toNat (s.regRange x) (by simp) (by rw [State.regRange_length]; omega)

/-- Settles O39: a write of `V0..VX` from the bytes read, which touches the registers only. -/
theorem registerLoadBlock : Obligations.RegisterLoadBlock := by
  refine ⟨selects_loadRegs, fun x s h => ?_, exec_loadRegs_outside⟩
  refine ⟨_, exec_loadRegs_inside x s h, rfl, s.setRegRange_peek _, fun r hr => ?_, fun r hr => ?_⟩
  · rw [State.setRegRange_range_reg, if_pos (by omega)]
  · rw [State.setRegRange_range_reg, if_neg (by omega)]

end Sys2Proof.Machine
end

section
/-!
The display instructions (43_display.md, rules R103 to R108): which words select each instruction, what drawing a sprite
does to the 2048 pixels and to `VF`, and the two statements, each assembled from these.
-/
namespace Sys2Proof.Machine

/-! ### Which words select them (R54) -/

theorem selects_cls : Selects 0x00E0#16 0xFFFF#16 (fun _ => .cls) := selects_of_word _ _ (by decide)

theorem selects_drw : Selects 0xD000#16 0xF000#16 (fun w => .drw (fieldX w) (fieldY w) (fieldN w)) :=
  selects_of_key _ _ _ (by decide) fun w (h : fieldK w = 0xD#4) => by simp [decodeWord, h]

/-! ### The pixels a sprite covers and the collision (R106, R108(a)) -/

/-- Whether a sprite covers a pixel depends on the pixel's wrapped coordinates only. -/
theorem rowsCover_mod (bs : List Byte) (x0 y u v : Nat) :
    rowsCover bs x0 y (u % 64) (v % 32) ↔ rowsCover bs x0 y u v := by
  simp only [rowsCover, rowCovers, Nat.mod_mod]

/-- Drawing toggles the covered pixels of the grid and leaves the others. -/
theorem drawRows_pixel_covers (bs : List Byte) (x0 y0 : Nat) (d : Framebuffer × Bool) (hn : bs.length ≤ 32)
    (px py : Nat) (hx : px < 64) (hy : py < 32) :
    (covers bs x0 y0 px py →
      Framebuffer.pixel (drawRows bs x0 y0 d).1 px py = !Framebuffer.pixel d.1 px py) ∧
    (¬ covers bs x0 y0 px py →
      Framebuffer.pixel (drawRows bs x0 y0 d).1 px py = Framebuffer.pixel d.1 px py) := by
  rw [covers_iff bs x0 y0 px py hx hy]
  exact drawRows_pixel bs x0 y0 d hn px py

/-- Drawing from no collision ends in one if and only if a covered pixel of the grid was set. -/
theorem drawRows_hit_covers (bs : List Byte) (x0 y0 : Nat) (f : Framebuffer) (hn : bs.length ≤ 32) :
    (drawRows bs x0 y0 (f, false)).2 = true ↔
      ∃ px py, px < 64 ∧ py < 32 ∧ covers bs x0 y0 px py ∧ Framebuffer.pixel f px py = true := by
  rw [drawRows_hit bs x0 y0 (f, false) hn]
  constructor
  · rintro (h | ⟨u, v, hcover, hset⟩)
    · exact absurd h Bool.false_ne_true
    · have hu : u % 64 < 64 := Nat.mod_lt u (by decide)
      have hv : v % 32 < 32 := Nat.mod_lt v (by decide)
      refine ⟨u % 64, v % 32, hu, hv, ?_, ?_⟩
      · exact (covers_iff bs x0 y0 _ _ hu hv).2 ((rowsCover_mod bs x0 y0 u v).2 hcover)
      · rw [Framebuffer.pixel_congr f (Nat.mod_mod u 64) (Nat.mod_mod v 32)]
        exact hset
  · rintro ⟨px, py, hx, hy, hcover, hset⟩
    exact .inr ⟨px, py, (covers_iff bs x0 y0 px py hx hy).1 hcover, hset⟩

theorem flagByte_eq_one_iff (b : Bool) : flagByte b = 1#8 ↔ b = true := by cases b <;> simp [flagByte]

/-! ### DRW (R106, R108) -/

/-- The rows of a sprite: `n` bytes from `I` on (R105). -/
def State.spriteRows (s : State) (n : Nat) : List Byte := (List.range n).map fun k => s.peek (s.i.toNat + k)

@[simp] theorem State.spriteRows_length (s : State) (n : Nat) : (s.spriteRows n).length = n := by
  simp [State.spriteRows]

theorem State.spriteRows_getD (s : State) {n r : Nat} (h : r < n) :
    (s.spriteRows n).getD r 0#8 = s.peek (s.i.toNat + r) := by
  simp [State.spriteRows, List.getD_eq_getElem?_getD, h]

/-- The state after these sprite rows are drawn at `Vx`, `Vy`: the pixels, and the collision in `VF` (R106). -/
def State.drawSprite (s : State) (rows : List Byte) (x y : Reg) : State :=
  (s.setFb (drawRows rows (s.reg x).toNat (s.reg y).toNat (s.fb, false)).1).setReg regF
    (flagByte (drawRows rows (s.reg x).toNat (s.reg y).toNat (s.fb, false)).2)

theorem State.drawSprite_fb (s : State) (rows : List Byte) (x y : Reg) :
    (s.drawSprite rows x y).fb = (drawRows rows (s.reg x).toNat (s.reg y).toNat (s.fb, false)).1 := rfl

theorem State.drawSprite_flag (s : State) (rows : List Byte) (x y : Reg) :
    (s.drawSprite rows x y).reg regF =
      flagByte (drawRows rows (s.reg x).toNat (s.reg y).toNat (s.fb, false)).2 :=
  State.setReg_reg_self ..

/-- Drawing a sprite changes the framebuffer and `VF` only. -/
theorem State.drawSprite_frame (s : State) (rows : List Byte) (x y : Reg) :
    s.drawSprite rows x y =
      { s with regs := (s.drawSprite rows x y).regs, fb := (s.drawSprite rows x y).fb } ∧
    s.SameRegsBut (s.drawSprite rows x y) [regF] ∧ s.SameBytes (s.drawSprite rows x y) :=
  ⟨rfl, State.setReg_sameRegsBut (s.setFb _) regF _, fun _ => rfl⟩

/-- A sprite that lies in memory, or has no rows, is drawn (R106, R108(b)). -/
theorem exec_drw_inside (x y : Reg) (n : Nibble) (s : State) (h : n.toNat = 0 ∨ s.i.toNat + n.toNat ≤ 0x1000) :
    exec (.drw x y n) s = .next (s.drawSprite (s.spriteRows n.toNat) x y) := by
  simp only [exec, execDrw, State.base, State.drawSprite, State.spriteRows,
    (s.readBlock_spec n.toNat s.i.toNat).1 h]

/-- A sprite that reaches above 0xFFF raises the error at its first address there (R99). -/
theorem exec_drw_outside (x y : Reg) (n : Nibble) (s : State) (hn : n.toNat ≠ 0) (h : 0x1000 < s.i.toNat + n.toNat) :
    exec (.drw x y n) s = .fault (.boundsError (.memRead (max s.i.toNat 0x1000))) := by
  simp only [exec, execDrw, State.base, (s.readBlock_spec n.toNat s.i.toNat).2 hn h]

/-! ### The statements -/

/-- Settles O42: one write of the framebuffer, with the cleared one. -/
theorem clearDisplay : Obligations.ClearDisplay :=
  ⟨selects_cls, fun s => ⟨s.setFb Framebuffer.clear, rfl, rfl, s.setFb_peek Framebuffer.clear,
    fun px py _ _ => Framebuffer.clear_pixel px py⟩⟩

/-- Settles O43: DRW draws the rows at `I`, at most 15 of them, so no two meet on one pixel and each covered pixel is
toggled once. -/
theorem drawTogglesCoveredPixels : Obligations.DrawTogglesCoveredPixels := by
  refine ⟨selects_drw, fun x y n s h => ?_, fun x y n s hn h => ?_⟩
  · have hin : n.toNat = 0 ∨ s.i.toNat + n.toNat ≤ 0x1000 :=
      h.imp (fun hzero => congrArg BitVec.toNat hzero) (fun hlast => by omega)
    have hlen : (s.spriteRows n.toNat).length ≤ 32 := by
      rw [State.spriteRows_length]
      exact n.isLt.le.trans (by decide)
    refine ⟨s.drawSprite (s.spriteRows n.toNat) x y, s.spriteRows n.toNat, exec_drw_inside x y n s hin,
      s.spriteRows_length n.toNat, fun r hr => s.spriteRows_getD hr, fun px py hx hy => ?_, ?_, ?_,
      s.drawSprite_frame _ x y⟩
    · exact drawRows_pixel_covers _ _ _ (s.fb, false) hlen px py hx hy
    · rw [State.drawSprite_flag]
      exact flagByte_cases _
    · rw [State.drawSprite_flag, flagByte_eq_one_iff]
      exact drawRows_hit_covers _ _ _ s.fb hlen
  · have hne : n.toNat ≠ 0 := fun hzero => hn (BitVec.eq_of_toNat_eq hzero)
    exact exec_drw_outside x y n s hne (by omega)

end Sys2Proof.Machine
end

section
/-!
The key skips (44_timers_keys.md, rules R110, R111 and R116): which words select SKP and SKNP, the test of the front key
they share, what each does when it succeeds and when it fails, and the two statements, each assembled from these.
-/
namespace Sys2Proof.Machine

/-! ### Which words select them (R54) -/

/-- A word of group E is decoded by its low byte (R49, R52). -/
theorem decodeWord_groupE {w : Word} (h : fieldK w = 0xE#4) : decodeWord w = decodeGroupE w := by
  simp [decodeWord, h]

/-- A pattern of group E: it is enough that every word with that low byte decodes so (R52). -/
theorem selects_of_groupE (bits : Word) (f : Word → Instr) (hk : fieldK bits = 0xE#4)
    (hd : ∀ w, fieldNN w = fieldNN bits → decodeGroupE w = .ok (f w)) : Selects bits 0xF0FF#16 f :=
  selects_of_keyNN _ _ _ (by decide) (by decide) fun w h hn => (decodeWord_groupE (h.trans hk)).trans (hd w hn)

theorem selects_skp : Selects 0xE09E#16 0xF0FF#16 (fun w => .skp (fieldX w)) :=
  selects_of_groupE _ _ (by decide) fun w (h : fieldNN w = 0x9E#8) => by simp [decodeGroupE, h]

theorem selects_sknp : Selects 0xE0A1#16 0xF0FF#16 (fun w => .sknp (fieldX w)) :=
  selects_of_groupE _ _ (by decide) fun w (h : fieldNN w = 0xA1#8) => by simp [decodeGroupE, h]

/-! ### The test of the front key (R116) -/

theorem State.frontKeyIs_nil (x : Reg) {s : State} (h : s.keyq = []) : ¬ s.frontKeyIs x = true := by
  simp [State.frontKeyIs, h]

theorem State.frontKeyIs_cons (x : Reg) {s : State} {k : Key} {rest : List Key} (h : s.keyq = k :: rest) :
    s.frontKeyIs x = true ↔ k.toNat = (s.reg x).toNat := by
  simp [State.frontKeyIs, h, keyByte_eq_iff]

/-! ### SKP and SKNP as the test answers (R110, R111) -/

theorem exec_skp_front {x : Reg} {s : State} (h : s.frontKeyIs x = true) :
    exec (.skp x) s = .next { s with pc := s.pc + 2#16, keyq := s.keyq.tail } :=
  congrArg _ (if_pos h)

theorem exec_skp_notFront {x : Reg} {s : State} (h : ¬ s.frontKeyIs x = true) : exec (.skp x) s = .next s :=
  congrArg _ (if_neg h)

theorem exec_sknp_front {x : Reg} {s : State} (h : s.frontKeyIs x = true) :
    exec (.sknp x) s = .next { s with keyq := if s.params.sknpEqConsumes then s.keyq.tail else s.keyq } := by
  refine congrArg _ ((if_pos h).trans ?_)
  split
  case isTrue => rfl
  case isFalse => rfl

theorem exec_sknp_notFront {x : Reg} {s : State} (h : ¬ s.frontKeyIs x = true) :
    exec (.sknp x) s = .next { s with pc := s.pc + 2#16 } :=
  congrArg _ (if_neg h)

/-! ### The statements -/

/-- Settles O45: SKP skips and consumes exactly when the test of the front key succeeds. -/
theorem skipIfKeyConsumes : Obligations.SkipIfKeyConsumes := by
  refine ⟨selects_skp, fun x s => ⟨fun k rest hq hk => ?_, fun k rest hq hk => ?_, fun hq => ?_⟩⟩
  · rw [exec_skp_front ((State.frontKeyIs_cons x hq).2 hk), hq, List.tail_cons]
  · exact exec_skp_notFront (mt (State.frontKeyIs_cons x hq).1 hk)
  · exact exec_skp_notFront (State.frontKeyIs_nil x hq)

/-- Settles O46: SKNP skips exactly when the test of the front key fails; where it succeeds, the parameter decides
whether the front goes. -/
theorem skipIfNotKeyKeeps : Obligations.SkipIfNotKeyKeeps := by
  refine ⟨selects_sknp, fun x s => ⟨fun k rest hq hk => ?_, fun k rest hq hk => ?_, fun hq => ?_⟩⟩
  · rw [exec_sknp_front ((State.frontKeyIs_cons x hq).2 hk), hq, List.tail_cons]
  · exact exec_sknp_notFront (mt (State.frontKeyIs_cons x hq).1 hk)
  · exact exec_sknp_notFront (State.frontKeyIs_nil x hq)

end Sys2Proof.Machine
end

section
/-!
Creation and load (70_reset_and_hazards.md, rules R143 to R146): what the created machine's registers, pixels and bytes
read as, what the loader answers on each side of its size check, and the two statements, each assembled from these.
-/
namespace Sys2Proof.Machine

/-! ### Creation (R143, R144) -/

@[simp] theorem State.created_reg (p : Params) (r : Reg) : (State.created p).reg r = 0#8 :=
  Vector.getElem_replicate r.isLt

theorem State.created_fb (p : Params) : (State.created p).fb = Framebuffer.clear := rfl

/-- Row `k` of glyph `d` stands five bytes per glyph from `FONT_BASE` on. -/
theorem State.created_peek_glyph (p : Params) {d k : Nat} (hd : d < 16) (hk : k < 5) :
    (State.created p).peek (p.fontBase + 5 * d + k) = p.font.getD (5 * d + k) 0#8 := by
  rw [Nat.add_assoc, State.created_peek]
  exact Memory.initialByte_font p (5 * d + k) (by omega)

/-! ### The loader on each side of its size check (R145, R146) -/

/-- An image that fits is stored as one block from 0x200 on. -/
theorem State.load_of_fits {image : List Byte} (h : image.length ≤ 3584) (s : State) :
    s.load image = answer (s.writeBlock 0x200 image) :=
  if_pos ((imageFits_iff image).2 h)

/-- An image that does not fit is a load error with its length. -/
theorem State.load_of_tooLong {image : List Byte} (h : 3584 < image.length) (s : State) :
    s.load image = .fault (.loadError image.length) :=
  if_neg (mt (imageFits_iff image).1 (Nat.not_le.2 h))

/-- No run starts after a load error (R139). -/
theorem boot_of_load_fault {p : Params} {image : List Byte} {e : Fault}
    (h : (State.created p).load image = .fault e) : boot p image = .fault e := by
  rw [boot, h]

/-! ### The statements -/

/-- Settles O57: the registers and pixels are replicated zeros, and memory lists nothing, so that each byte reads as its
initial content: the font's in the font's 80 places, 0 elsewhere. -/
theorem creationIsZeroFilled : Obligations.CreationIsZeroFilled := by
  rintro p _ rfl
  have hpixels : ∀ px py, px < 64 → py < 32 → Framebuffer.pixel (State.created p).fb px py = false :=
    fun px py _ _ => by rw [State.created_fb, Framebuffer.clear_pixel]
  exact ⟨State.created_reg p, rfl, rfl, rfl, rfl, rfl, hpixels, rfl, rfl, rfl,
    fun _ _ => State.created_peek_glyph p, Memory.initialByte_other p⟩

/-- Settles O58: the size check decides; an image of at most 3584 bytes ends inside memory, so that storing it from
0x200 on raises no error. -/
theorem loadCopiesImage : Obligations.LoadCopiesImage := by
  refine fun image s => ⟨fun h => ⟨State.load_of_tooLong h s, fun p => ?_⟩, fun h => ?_⟩
  · exact boot_of_load_fault (State.load_of_tooLong h _)
  · rw [State.load_of_fits h]
    exact s.answer_writeBlock_inside 0x200 image (by omega)

end Sys2Proof.Machine
end

section
/-!
The decoder and the encoder (30_encoding.md, rules R47 to R62): decoding an encoded instruction, encoding a decoded word,
the table of illegal words, the rows of the opcode map, and the statements about them.
-/
namespace Sys2Proof.Machine

/-! ### Decoding an encoded instruction (R62) -/

theorem decodeWord_encode (i : Instr) : decodeWord (encode i) = .ok i := by
  cases i
  case cls | ret => rfl
  case ldReg | orReg | andReg | xorReg | addReg | sub | shr | subn | shl => simp [encode, decodeWord, decodeGroup8]
  case skp | sknp => simp [encode, decodeWord, decodeGroupE]
  case ldVxDt | ldVxK | ldDtVx | ldStVx | addI | ldF | ldB | storeRegs | loadRegs =>
    simp [encode, decodeWord, decodeGroupF]
  all_goals simp [encode, decodeWord]

theorem decodeBytes_encodeBytes (i : Instr) (rest : List Byte) :
    decodeBytes (encodeBytes i ++ rest) = .ok (i, rest) := by
  simp [encodeBytes, decodeBytes, decodeWord_encode]

/-! ### Encoding a decoded word (R62): each group gives back the fields that it reads -/

/-- A field that a `match` of the decoder found at a value, as a literal. -/
theorem eq_ofNat_of_toNat_eq {n k : Nat} {v : BitVec n} (h : v.toNat = k) : v = BitVec.ofNat n k := by
  rw [← h, BitVec.ofNat_toNat, BitVec.setWidth_eq]

theorem encode_of_decodeGroup0 {w : Word} {i : Instr} (h : decodeGroup0 w = .ok i) :
    encode i = formatA 0x0#4 (fieldNNN w) := by
  unfold decodeGroup0 at h
  split at h <;> cases h
  all_goals rename_i hkey; exact congrArg (formatA _) (eq_ofNat_of_toNat_eq hkey).symm

theorem encode_of_decodeGroup8 {w : Word} {i : Instr} (h : decodeGroup8 w = .ok i) :
    encode i = formatRRN 0x8#4 (fieldX w) (fieldY w) (fieldN w) := by
  unfold decodeGroup8 at h
  split at h <;> cases h
  all_goals rename_i hkey; exact congrArg (formatRRN _ _ _) (eq_ofNat_of_toNat_eq hkey).symm

theorem encode_of_decodeGroupE {w : Word} {i : Instr} (h : decodeGroupE w = .ok i) :
    encode i = formatRC 0xE#4 (fieldX w) (fieldNN w) := by
  unfold decodeGroupE at h
  split at h <;> cases h
  all_goals rename_i hkey; exact congrArg (formatRC _ _) (eq_ofNat_of_toNat_eq hkey).symm

theorem encode_of_decodeGroupF {w : Word} {i : Instr} (h : decodeGroupF w = .ok i) :
    encode i = formatRC 0xF#4 (fieldX w) (fieldNN w) := by
  unfold decodeGroupF at h
  split at h <;> cases h
  all_goals rename_i hkey; exact congrArg (formatRC _ _) (eq_ofNat_of_toNat_eq hkey).symm

/-- Clearing the low nibble of a word leaves its other three fields (R55). -/
theorem formatRRN_low_zero (w : Word) : formatRRN (fieldK w) (fieldX w) (fieldY w) 0x0#4 = w &&& 0xFFF0#16 := by
  unfold formatRRN fieldK fieldX fieldY nib; ext i hi; simp; interval_cases i <;> simp

theorem encode_of_decodeWord {w : Word} {i : Instr} (h : decodeWord w = .ok i) :
    encode i = if fieldK w = 0x5#4 ∨ fieldK w = 0x9#4 then w &&& 0xFFF0#16 else w := by
  have hA := formatA_fields w
  have hRC := formatRC_fields w
  have hRRN := formatRRN_fields w
  have hlow := formatRRN_low_zero w
  unfold decodeWord at h
  split at h
  all_goals rename_i hkey
  case h_17 => cases h
  all_goals rw [eq_ofNat_of_toNat_eq hkey] at hA hRC hRRN hlow ⊢
  case h_1 => rw [encode_of_decodeGroup0 h]; simp [hA]
  case h_9 => rw [encode_of_decodeGroup8 h]; simp [hRRN]
  case h_15 => rw [encode_of_decodeGroupE h]; simp [hRC]
  case h_16 => rw [encode_of_decodeGroupF h]; simp [hRC]
  all_goals cases h; simp [encode, hA, hRC, hRRN, hlow]

/-! ### What the decoder answers (R49 to R52, R56) -/

theorem decodeGroup0_total (w : Word) :
    (∃ i, decodeGroup0 w = .ok i) ∨ decodeGroup0 w = .error (.unrecognized w) := by
  unfold decodeGroup0; split <;> simp

theorem decodeGroup8_total (w : Word) :
    (∃ i, decodeGroup8 w = .ok i) ∨ decodeGroup8 w = .error (.unrecognized w) := by
  unfold decodeGroup8; split <;> simp

theorem decodeGroupE_total (w : Word) :
    (∃ i, decodeGroupE w = .ok i) ∨ decodeGroupE w = .error (.unrecognized w) := by
  unfold decodeGroupE; split <;> simp

theorem decodeGroupF_total (w : Word) :
    (∃ i, decodeGroupF w = .ok i) ∨ decodeGroupF w = .error (.unrecognized w) := by
  unfold decodeGroupF; split <;> simp

/-- The decoder is total, and an error carries the word (R56). -/
theorem decodeWord_total (w : Word) :
    (∃ i, decodeWord w = .ok i) ∨ decodeWord w = .error (.unrecognized w) := by
  unfold decodeWord
  split
  case h_1 => exact decodeGroup0_total w
  case h_9 => exact decodeGroup8_total w
  case h_15 => exact decodeGroupE_total w
  case h_16 => exact decodeGroupF_total w
  case h_17 => exact .inr rfl
  all_goals exact .inl ⟨_, rfl⟩

/-! ### The table of illegal words (R57) -/

/-- The table of illegal words, its quotients and remainders as the fields that the decoder reads. -/
theorem wordIllegal_fields (w : Word) :
    wordIllegal w =
      ((fieldK w).toNat == 0x0 && (fieldNNN w).toNat != 0x0E0 && (fieldNNN w).toNat != 0x0EE ||
      (fieldK w).toNat == 0x8 && ((fieldN w).toNat == 0x8 || (fieldN w).toNat == 0x9 || (fieldN w).toNat == 0xA ||
        (fieldN w).toNat == 0xB || (fieldN w).toNat == 0xC || (fieldN w).toNat == 0xD || (fieldN w).toNat == 0xF) ||
      (fieldK w).toNat == 0xE && (fieldNN w).toNat != 0x9E && (fieldNN w).toNat != 0xA1 ||
      (fieldK w).toNat == 0xF && (fieldNN w).toNat != 0x07 && (fieldNN w).toNat != 0x0A && (fieldNN w).toNat != 0x15 &&
        (fieldNN w).toNat != 0x18 && (fieldNN w).toNat != 0x1E && (fieldNN w).toNat != 0x29 &&
        (fieldNN w).toNat != 0x33 && (fieldNN w).toNat != 0x55 && (fieldNN w).toNat != 0x65) := by
  have hK : (fieldK w).toNat = w.toNat / 0x1000 % 0x10 := nib_toNat w 4 4
  have hNNN : (fieldNNN w).toNat = w.toNat / 1 % 0x1000 := nib_toNat w 1 3
  have hNN : (fieldNN w).toNat = w.toNat / 1 % 0x100 := nib_toNat w 1 2
  have hN : (fieldN w).toNat = w.toNat / 1 % 0x10 := nib_toNat w 1 1
  have hw : w.toNat / 0x1000 < 0x10 := by have := w.isLt; omega
  rw [hK, hNNN, hNN, hN, Nat.mod_eq_of_lt hw, Nat.div_one]
  rfl

/-- The words that the decoder refuses are those of the table: only groups 0, 8, E and F have any. -/
theorem decodeWord_error_iff (w : Word) : decodeWord w = .error (.unrecognized w) ↔ wordIllegal w = true := by
  rw [wordIllegal_fields]
  unfold decodeWord
  split
  all_goals rename_i hkey
  case h_1 => unfold decodeGroup0; split <;> simp_all
  case h_9 =>
    have hN : (fieldN w).toNat < 16 := (fieldN w).isLt
    unfold decodeGroup8; split
    case h_10 => simp_all; omega
    all_goals simp_all
  case h_15 => unfold decodeGroupE; split <;> simp_all
  case h_16 => unfold decodeGroupF; split <;> simp_all
  case h_17 =>
    -- a key is at most 0xF, so no word reaches the last arm
    have hK : (fieldK w).toNat < 16 := (fieldK w).isLt
    simp only [imp_false] at *
    omega
  all_goals simp [hkey]

/-! ### The rows of the opcode map (R54) -/

theorem selects_rnd : Selects 0xC000#16 0xF000#16 (fun w => .rnd (fieldX w) (fieldNN w)) :=
  selects_of_key _ _ _ (by decide) fun w (h : fieldK w = 0xC#4) => by simp [decodeWord, h]

theorem selects_ldVxDt : Selects 0xF007#16 0xF0FF#16 (fun w => .ldVxDt (fieldX w)) :=
  selects_of_groupF _ _ (by decide) fun w (h : fieldNN w = 0x07#8) => by simp [decodeGroupF, h]

theorem selects_ldVxK : Selects 0xF00A#16 0xF0FF#16 (fun w => .ldVxK (fieldX w)) :=
  selects_of_groupF _ _ (by decide) fun w (h : fieldNN w = 0x0A#8) => by simp [decodeGroupF, h]

theorem selects_ldDtVx : Selects 0xF015#16 0xF0FF#16 (fun w => .ldDtVx (fieldX w)) :=
  selects_of_groupF _ _ (by decide) fun w (h : fieldNN w = 0x15#8) => by simp [decodeGroupF, h]

theorem selects_ldStVx : Selects 0xF018#16 0xF0FF#16 (fun w => .ldStVx (fieldX w)) :=
  selects_of_groupF _ _ (by decide) fun w (h : fieldNN w = 0x18#8) => by simp [decodeGroupF, h]

theorem selects_ldF : Selects 0xF029#16 0xF0FF#16 (fun w => .ldF (fieldX w)) :=
  selects_of_groupF _ _ (by decide) fun w (h : fieldNN w = 0x29#8) => by simp [decodeGroupF, h]

/-- Every word that an instruction's row selects decodes to an instruction of that row. -/
theorem exists_selects_row (j : Instr) :
    ∃ f : Word → Instr, Selects j.row.bits j.row.mask f ∧ ∀ w, (f w).row = j.row :=
  match j with
  | .cls => ⟨_, selects_cls, fun _ => rfl⟩
  | .ret => ⟨_, selects_ret, fun _ => rfl⟩
  | .jp _ => ⟨_, selects_jp, fun _ => rfl⟩
  | .call _ => ⟨_, selects_call, fun _ => rfl⟩
  | .seByte _ _ => ⟨_, selects_seByte, fun _ => rfl⟩
  | .sneByte _ _ => ⟨_, selects_sneByte, fun _ => rfl⟩
  | .seReg _ _ => ⟨_, selects_seReg, fun _ => rfl⟩
  | .ldByte _ _ => ⟨_, selects_ldByte, fun _ => rfl⟩
  | .addByte _ _ => ⟨_, selects_addByte, fun _ => rfl⟩
  | .ldReg _ _ => ⟨_, selects_ldReg, fun _ => rfl⟩
  | .orReg _ _ => ⟨_, selects_orReg, fun _ => rfl⟩
  | .andReg _ _ => ⟨_, selects_andReg, fun _ => rfl⟩
  | .xorReg _ _ => ⟨_, selects_xorReg, fun _ => rfl⟩
  | .addReg _ _ => ⟨_, selects_addReg, fun _ => rfl⟩
  | .sub _ _ => ⟨_, selects_sub, fun _ => rfl⟩
  | .shr _ _ => ⟨_, selects_shr, fun _ => rfl⟩
  | .subn _ _ => ⟨_, selects_subn, fun _ => rfl⟩
  | .shl _ _ => ⟨_, selects_shl, fun _ => rfl⟩
  | .sneReg _ _ => ⟨_, selects_sneReg, fun _ => rfl⟩
  | .ldI _ => ⟨_, selects_ldI, fun _ => rfl⟩
  | .jpV0 _ => ⟨_, selects_jpV0, fun _ => rfl⟩
  | .rnd _ _ => ⟨_, selects_rnd, fun _ => rfl⟩
  | .drw _ _ _ => ⟨_, selects_drw, fun _ => rfl⟩
  | .skp _ => ⟨_, selects_skp, fun _ => rfl⟩
  | .sknp _ => ⟨_, selects_sknp, fun _ => rfl⟩
  | .ldVxDt _ => ⟨_, selects_ldVxDt, fun _ => rfl⟩
  | .ldVxK _ => ⟨_, selects_ldVxK, fun _ => rfl⟩
  | .ldDtVx _ => ⟨_, selects_ldDtVx, fun _ => rfl⟩
  | .ldStVx _ => ⟨_, selects_ldStVx, fun _ => rfl⟩
  | .addI _ => ⟨_, selects_addI, fun _ => rfl⟩
  | .ldF _ => ⟨_, selects_ldF, fun _ => rfl⟩
  | .ldB _ => ⟨_, selects_ldB, fun _ => rfl⟩
  | .storeRegs _ => ⟨_, selects_storeRegs, fun _ => rfl⟩
  | .loadRegs _ => ⟨_, selects_loadRegs, fun _ => rfl⟩

/-- An instruction's own word selects its row. -/
theorem encode_and_mask (i : Instr) : encode i &&& i.row.mask = i.row.bits :=
  match i with
  | .cls => Laws.EncodesByRow.cls
  | .ret => Laws.EncodesByRow.ret
  | .jp nnn => Laws.EncodesByRow.jp nnn
  | .call nnn => Laws.EncodesByRow.call nnn
  | .seByte x nn => Laws.EncodesByRow.seByte x nn
  | .sneByte x nn => Laws.EncodesByRow.sneByte x nn
  | .seReg x y => Laws.EncodesByRow.seReg x y
  | .ldByte x nn => Laws.EncodesByRow.ldByte x nn
  | .addByte x nn => Laws.EncodesByRow.addByte x nn
  | .ldReg x y => Laws.EncodesByRow.ldReg x y
  | .orReg x y => Laws.EncodesByRow.orReg x y
  | .andReg x y => Laws.EncodesByRow.andReg x y
  | .xorReg x y => Laws.EncodesByRow.xorReg x y
  | .addReg x y => Laws.EncodesByRow.addReg x y
  | .sub x y => Laws.EncodesByRow.sub x y
  | .shr x y => Laws.EncodesByRow.shr x y
  | .subn x y => Laws.EncodesByRow.subn x y
  | .shl x y => Laws.EncodesByRow.shl x y
  | .sneReg x y => Laws.EncodesByRow.sneReg x y
  | .ldI nnn => Laws.EncodesByRow.ldI nnn
  | .jpV0 nnn => Laws.EncodesByRow.jpV0 nnn
  | .rnd x nn => Laws.EncodesByRow.rnd x nn
  | .drw x y n => Laws.EncodesByRow.drw x y n
  | .skp x => Laws.EncodesByRow.skp x
  | .sknp x => Laws.EncodesByRow.sknp x
  | .ldVxDt x => Laws.EncodesByRow.ldVxDt x
  | .ldVxK x => Laws.EncodesByRow.ldVxK x
  | .ldDtVx x => Laws.EncodesByRow.ldDtVx x
  | .ldStVx x => Laws.EncodesByRow.ldStVx x
  | .addI x => Laws.EncodesByRow.addI x
  | .ldF x => Laws.EncodesByRow.ldF x
  | .ldB x => Laws.EncodesByRow.ldB x
  | .storeRegs x => Laws.EncodesByRow.storeRegs x
  | .loadRegs x => Laws.EncodesByRow.loadRegs x

/-- The only instructions whose word has key 5 or 9 are the register skips, whose mask does not keep the low nibble
(R55). -/
theorem mask_of_ignored_nibble {i : Instr} (h : fieldK (encode i) = 0x5#4 ∨ fieldK (encode i) = 0x9#4) :
    i.row.mask = 0xF000#16 := by
  cases i
  case seReg | sneReg => rfl
  all_goals simp [encode] at h

/-- A word that decodes selects the row of its instruction. -/
theorem row_selects_of_decodeWord {w : Word} {i : Instr} (h : decodeWord w = .ok i) : i.row.selects w = true := by
  suffices hmask : encode i &&& i.row.mask = w &&& i.row.mask from
    beq_iff_eq.2 (hmask.symm.trans (encode_and_mask i))
  rw [encode_of_decodeWord h]
  split
  next hkey =>
    have hK : fieldK (encode i) = fieldK w := by
      rw [encode_of_decodeWord h, if_pos hkey, fieldK_and w _ (by decide)]
    rw [mask_of_ignored_nibble (hK ▸ hkey), BitVec.and_assoc]
    rfl
  next => rfl

/-- A row that a decoding word selects is the row of its instruction: a word decodes to one instruction. -/
theorem row_eq_of_selects {w : Word} {i j : Instr} (h : decodeWord w = .ok i) (hj : j.row.selects w = true) :
    j.row = i.row := by
  obtain ⟨f, hf, hrow⟩ := exists_selects_row j
  have hw : decodeWord w = .ok (f w) := hf w (beq_iff_eq.1 hj)
  obtain rfl : i = f w := Except.ok.inj (h.symm.trans hw)
  exact (hrow w).symm

/-! ### The statements -/

/-- Settles O1: the seventeen words, decoded. -/
theorem sampleWordsDecode : Obligations.SampleWordsDecode := by
  unfold Obligations.SampleWordsDecode; decide

/-- Settles O2: the word of an instruction has the fields that the decoder reads, and its two bytes are that word. -/
theorem decodeOfEncode : Obligations.DecodeOfEncode :=
  fun i rest => ⟨decodeWord_encode i, decodeBytes_encodeBytes i rest⟩

/-- Settles O3: the decoder by its groups; it is onto because each instruction is decoded from its own word. -/
theorem decoderLaws : Obligations.DecoderLaws :=
  ⟨decodeWord_total, fun i => ⟨encode i, decodeWord_encode i⟩, fun _ _ => encode_of_decodeWord⟩

/-- Settles O4: the table's quotients and remainders are the fields that the decoder reads. -/
theorem illegalWordsExactly : Obligations.IllegalWordsExactly := decodeWord_error_iff

/-- Settles O5: re-encoding gives the word back under the row's mask, and every row selects words of its own
instruction only. -/
theorem opcodeMapSelectsOneRow : Obligations.OpcodeMapSelectsOneRow :=
  fun _ _ h => ⟨row_selects_of_decodeWord h, fun _ hj => row_eq_of_selects h hj⟩

end Sys2Proof.Machine
end

section
/-!
Errors and completion (60_exceptions.md section 1, R118 to R121): each instruction completes or raises the error of the
table, what completion says of the six instructions that can fail, and the statements that follow from these.
-/
namespace Sys2Proof.Machine

/-! ### Completion or the table's error -/

/-- The stack of a RET that finds an entry, its top apart. -/
theorem exists_stack_snoc {l : List Word} (h : l.length ≠ 0) : ∃ rest v, l = rest ++ [v] :=
  (List.eq_nil_or_concat' l).resolve_left fun hnil => h (congrArg List.length hnil)

/-- Each instruction completes where the table raises nothing, and raises the table's error elsewhere. -/
theorem exec_cases (i : Instr) (s : State) :
    (raisedBy i s = none ∧ ∃ t, exec i s = .next t) ∨ ∃ e, raisedBy i s = some e ∧ exec i s = .fault e := by
  cases i
  case ret =>
    by_cases h : s.stack.length = 0
    · exact .inr ⟨_, if_pos h, exec_ret_nil s (List.length_eq_zero_iff.1 h)⟩
    · obtain ⟨rest, v, hv⟩ := exists_stack_snoc h
      exact .inl ⟨if_neg h, _, exec_ret_snoc s rest v hv⟩
  case call nnn =>
    by_cases h : s.params.stackDepth = some s.stack.length
    · exact .inr ⟨_, if_pos h, exec_call_full nnn s h⟩
    · exact .inl ⟨if_neg h, _, exec_call_room nnn s h⟩
  case drw x y n =>
    by_cases h : 1 ≤ n.toNat ∧ 0xFFF < s.i.toNat + n.toNat - 1
    · exact .inr ⟨_, if_pos h, exec_drw_outside x y n s (by omega) (by omega)⟩
    · exact .inl ⟨if_neg h, _, exec_drw_inside x y n s (by omega)⟩
  case ldB x =>
    obtain ⟨-, inside, outside⟩ := decimalStore
    by_cases h : 0xFFF < s.i.toNat + 2
    · exact .inr ⟨_, if_pos h, outside x s h⟩
    · exact .inl ⟨if_neg h, (inside x s (by omega)).imp fun _ ht => ht.1⟩
  case storeRegs x =>
    obtain ⟨-, inside, outside⟩ := registerStore
    by_cases h : 0xFFF < s.i.toNat + x.toNat
    · exact .inr ⟨_, if_pos h, outside x s h⟩
    · exact .inl ⟨if_neg h, (inside x s (by omega)).imp fun _ ht => ht.1⟩
  case loadRegs x =>
    by_cases h : 0xFFF < s.i.toNat + x.toNat
    · exact .inr ⟨_, if_pos h, exec_loadRegs_outside x s h⟩
    · exact .inl ⟨if_neg h, _, exec_loadRegs_inside x s (by omega)⟩
  all_goals exact .inl ⟨rfl, _, rfl⟩

theorem exec_fault_iff (i : Instr) (s : State) (e : Fault) : exec i s = .fault e ↔ raisedBy i s = some e := by
  rcases exec_cases i s with ⟨hr, t, ht⟩ | ⟨e', hr, hf⟩
  · rw [hr, ht]; exact ⟨nofun, nofun⟩
  · rw [hr, hf, Host.Outcome.fault.injEq, Option.some.injEq]

theorem raisedBy_eq_none_iff (i : Instr) (s : State) : raisedBy i s = none ↔ ∃ t, exec i s = .next t := by
  rcases exec_cases i s with ⟨hr, ht⟩ | ⟨e, hr, hf⟩
  · exact ⟨fun _ => ht, fun _ => hr⟩
  · rw [hr, hf]; exact ⟨nofun, nofun⟩

/-- No instruction is without a meaning. -/
theorem exec_ne_refused (i : Instr) (s : State) (r : Refusal) : exec i s ≠ .refused r := by
  rcases exec_cases i s with ⟨-, t, ht⟩ | ⟨e, -, hf⟩
  · rw [ht]; exact nofun
  · rw [hf]; exact nofun

/-- Settles O14: completion and the table's error exclude each other. -/
theorem errorsExactly : Obligations.ErrorsExactly :=
  fun i s => ⟨exec_fault_iff i s, raisedBy_eq_none_iff i s⟩

/-! ### What completion says of the six instructions that can fail -/

section
variable {s t : State}

theorem exec_ret_next (h : exec .ret s = .next t) :
    ∃ rest v, s.stack = rest ++ [v] ∧ t = { s with pc := v, stack := rest } := by
  by_cases hl : s.stack.length = 0
  · rw [exec_ret_nil s (List.length_eq_zero_iff.1 hl)] at h; cases h
  · obtain ⟨rest, v, hv⟩ := exists_stack_snoc hl
    rw [exec_ret_snoc s rest v hv] at h
    cases h
    exact ⟨rest, v, hv, rfl⟩

theorem exec_call_next {nnn : Addr} (h : exec (.call nnn) s = .next t) :
    s.params.stackDepth ≠ some s.stack.length ∧ t = (s.push s.pc).setPc (addrOperand nnn) := by
  by_cases hd : s.params.stackDepth = some s.stack.length
  · rw [exec_call_full nnn s hd] at h; cases h
  · rw [exec_call_room nnn s hd] at h; cases h; exact ⟨hd, rfl⟩

theorem exec_drw_next {x y : Reg} {n : Nibble} (h : exec (.drw x y n) s = .next t) :
    (n.toNat = 0 ∨ s.i.toNat + n.toNat ≤ 0x1000) ∧ t = s.drawSprite (s.spriteRows n.toNat) x y := by
  by_cases hin : n.toNat = 0 ∨ s.i.toNat + n.toNat ≤ 0x1000
  · rw [exec_drw_inside x y n s hin] at h; cases h; exact ⟨hin, rfl⟩
  · rw [exec_drw_outside x y n s (by omega) (by omega)] at h; cases h

theorem exec_loadRegs_next {x : Reg} (h : exec (.loadRegs x) s = .next t) :
    s.i.toNat + x.toNat ≤ 0xFFF ∧
      t = s.setRegRange ((List.range (x.toNat + 1)).map fun k => s.peek (s.i.toNat + k)) := by
  by_cases hin : s.i.toNat + x.toNat ≤ 0xFFF
  · rw [exec_loadRegs_inside x s hin] at h; cases h; exact ⟨hin, rfl⟩
  · rw [exec_loadRegs_outside x s (by omega)] at h; cases h

/-- A completed block store changes memory only, which keeps its canonical form. -/
theorem State.answer_writeBlock_next {a : Nat} {bs : List Byte} (h : answer (s.writeBlock a bs) = .next t) :
    t = { s with mem := t.mem } ∧ (Memory.wf s.params s.mem = true → Memory.wf t.params t.mem = true) := by
  obtain ⟨inside, outside⟩ := s.writeBlock_spec bs a
  by_cases hin : bs = [] ∨ a + bs.length ≤ 0x1000
  · obtain ⟨u, hu, hframe, -, hwf⟩ := inside hin
    rw [hu] at h
    cases h
    exact ⟨hframe, hwf⟩
  · rw [not_or] at hin
    rw [outside hin.1 (by omega)] at h
    cases h

/-- A completed block store of `V0..VX` lies in memory and holds the registers there. -/
theorem exec_storeRegs_next {x : Reg} (h : exec (.storeRegs x) s = .next t) :
    s.i.toNat + x.toNat ≤ 0xFFF ∧ ∀ r : Reg, r.toNat ≤ x.toNat → t.peek (s.i.toNat + r.toNat) = s.reg r := by
  obtain ⟨-, inside, outside⟩ := registerStore
  by_cases hin : s.i.toNat + x.toNat ≤ 0xFFF
  · obtain ⟨u, hu, -, hpeek, -⟩ := inside x s hin
    obtain rfl : u = t := Host.Outcome.next.inj (hu.symm.trans h)
    exact ⟨hin, hpeek⟩
  · rw [outside x s (by omega)] at h; cases h

end

/-! ### Instructions in sequence -/

/-- Settles O23: the entry that CALL pushed is the one that RET pops. -/
theorem returnMatchesCall : Obligations.ReturnMatchesCall := by
  intro nnn s t u h hu
  obtain ⟨-, rfl⟩ := exec_call_next h
  exact ⟨_, exec_ret_snoc u s.stack s.pc hu, rfl, rfl⟩

/-- Settles O40: the load reads the addresses of the store, which lie in memory. -/
theorem storeThenLoadRestores : Obligations.StoreThenLoadRestores := by
  intro x s t u h hbytes hi
  obtain ⟨hin, hstored⟩ := exec_storeRegs_next h
  refine ⟨_, exec_loadRegs_inside x u (by rw [hi]; exact hin), fun r hr => ?_⟩
  rw [State.setRegRange_range_reg, if_pos (by omega), hi, hbytes, hstored r hr]

/-- Settles O41: both fetched bytes are registers that the store put there. -/
theorem storeIsSeenByFetch : Obligations.StoreIsSeenByFetch := by
  intro x r q s t u h hbytes hq hqx hpc
  obtain ⟨hin, hstored⟩ := exec_storeRegs_next h
  have hfirst : u.peek u.pc.toNat = s.reg r := by rw [hpc, hbytes, hstored r (by omega)]
  have hsecond : u.peek (u.pc.toNat + 1) = s.reg q := by
    rw [show u.pc.toNat + 1 = s.i.toNat + q.toNat by omega, hbytes, hstored q hqx]
  exact ⟨_, u.fetchWord_spec.1 (by omega), by rw [bigEndian_toNat, hfirst, hsecond]⟩

/-- Drawing a sprite on what drawing it left gives back the framebuffer before both. -/
theorem drawRows_drawRows (bs : List Byte) (x0 y0 : Nat) (f : Framebuffer) (b c : Bool) (hn : bs.length ≤ 32) :
    (drawRows bs x0 y0 ((drawRows bs x0 y0 (f, b)).1, c)).1 = f := by
  refine Framebuffer.ext_pixel fun px py hx hy => ?_
  obtain ⟨on₁, off₁⟩ := drawRows_pixel_covers bs x0 y0 (f, b) hn px py hx hy
  obtain ⟨on₂, off₂⟩ := drawRows_pixel_covers bs x0 y0 ((drawRows bs x0 y0 (f, b)).1, c) hn px py hx hy
  by_cases hc : covers bs x0 y0 px py
  · rw [on₂ hc, on₁ hc, Bool.not_not]
  · rw [off₂ hc, off₁ hc]

/-- The second drawing collides exactly where the first found a covered pixel at 0. -/
theorem drawRows_hit_again (bs : List Byte) (x0 y0 : Nat) (f : Framebuffer) (b : Bool) (hn : bs.length ≤ 32) :
    (drawRows bs x0 y0 ((drawRows bs x0 y0 (f, b)).1, false)).2 = true ↔
      ∃ px py, px < 64 ∧ py < 32 ∧ covers bs x0 y0 px py ∧ Framebuffer.pixel f px py = false := by
  rw [drawRows_hit_covers bs x0 y0 _ hn]
  refine exists_congr fun px => exists_congr fun py => and_congr_right fun hx => and_congr_right fun hy =>
    and_congr_right fun hc => ?_
  rw [(drawRows_pixel_covers bs x0 y0 (f, b) hn px py hx hy).1 hc, Bool.not_eq_true']

/-- Settles O44: both draw the same rows at the same place. -/
theorem drawTwiceRestores : Obligations.DrawTwiceRestores := by
  intro x y n s t u h hfb hi hx hy hbytes
  obtain ⟨hin, rfl⟩ := exec_drw_next h
  have hlen : (s.spriteRows n.toNat).length ≤ 32 := by
    rw [State.spriteRows_length]
    exact n.isLt.le.trans (by decide)
  have hrows : u.spriteRows n.toNat = s.spriteRows n.toNat :=
    List.map_congr_left fun k _ => by rw [hi, hbytes]
  refine ⟨_, exec_drw_inside x y n u (by rw [hi]; exact hin), ?_, ?_⟩
  · rw [State.drawSprite_fb, hrows, hx, hy, hfb, State.drawSprite_fb]
    exact drawRows_drawRows _ _ _ s.fb _ _ hlen
  · rw [State.drawSprite_flag, hrows, hx, hy, hfb, State.drawSprite_fb, flagByte_eq_one_iff,
      drawRows_hit_again _ _ _ s.fb _ hlen]
    refine exists_congr fun px => exists_congr fun py => ?_
    rw [State.spriteRows, covers_by_row]
    constructor
    · rintro ⟨hpx, hpy, ⟨r, hr, hc⟩, hoff⟩
      exact ⟨r, hpx, hpy, hr, hc, hoff⟩
    · rintro ⟨r, hpx, hpy, hr, hc, hoff⟩
      exact ⟨hpx, hpy, ⟨r, hr, hc⟩, hoff⟩

end Sys2Proof.Machine
end


section
/-!
The random draw, the glyph address, and the key and timer instructions (rules R91, R96, R112 to R115): what each writes,
and the statements, each assembled from these.
-/
namespace Sys2Proof.Machine

/-! ### The glyph address (R27, R96) -/

theorem glyphAddress_toNat (p : Params) (d : Byte) : (glyphAddress p d).toNat = (p.fontBase + 5 * d.toNat) % 65536 :=
  BitVec.toNat_ofNat ..

theorem Params.fontBase_le (p : Params) : p.fontBase ≤ 0xFB0 := by
  unfold Params.fontBase
  cases p.fontPlace <;> decide

/-- The glyph of a digit lies below 2^16 under both readings of `FONT_BASE`. -/
theorem glyphAddress_toNat_of_digit (p : Params) {d : Byte} (h : d.toNat ≤ 15) :
    (glyphAddress p d).toNat = p.fontBase + 5 * d.toNat := by
  have hbase := Params.fontBase_le p
  rw [glyphAddress_toNat, Nat.mod_eq_of_lt (by omega)]

/-! ### The key wait (R25, R112) -/

theorem State.keyWaitTurn_nil {s : State} (x : Reg) (h : s.keyq = []) : s.keyWaitTurn x = s := by
  rw [State.keyWaitTurn, h]

theorem State.keyWaitTurn_cons {s : State} {k : Key} {rest : List Key} (x : Reg) (h : s.keyq = k :: rest) :
    s.keyWaitTurn x = s.takeKey x k rest := by
  rw [State.keyWaitTurn, h]

/-- A completed key wait: the front key in `Vx` and out of the queue, the hold over, and nothing else. -/
theorem State.takeKey_spec (s : State) (x : Reg) (k : Key) (rest : List Key) :
    ((s.takeKey x k rest).reg x).toNat = k.toNat ∧
    s.takeKey x k rest = { s with regs := (s.takeKey x k rest).regs, keyq := rest, waiting := none } ∧
    s.SameRegsBut (s.takeKey x k rest) [x] := by
  refine ⟨?_, rfl, fun r hr => ?_⟩
  · rw [State.takeKey_reg, if_pos rfl, keyByte_toNat]
  · rw [State.takeKey_reg, if_neg (by simpa using hr)]

theorem exec_ldVxK_nil {s : State} (x : Reg) (h : s.keyq = []) :
    exec (.ldVxK x) s = .next { s with waiting := some x } :=
  congrArg _ (State.keyWaitTurn_nil (s := s.setWaiting (some x)) x h)

theorem exec_ldVxK_cons {s : State} {k : Key} {rest : List Key} (x : Reg) (h : s.keyq = k :: rest) :
    exec (.ldVxK x) s = .next (s.takeKey x k rest) :=
  congrArg _ (State.keyWaitTurn_cons (s := s.setWaiting (some x)) x h)

/-- A completed SKP moves PC by a skip or not at all, and the queue never grows (R110). -/
theorem exec_skp_next {x : Reg} {s t : State} (h : exec (.skp x) s = .next t) :
    ∃ pc q, (pc = s.pc ∨ pc = s.pc + 2#16) ∧ q.length ≤ s.keyq.length ∧ t = { s with pc := pc, keyq := q } := by
  by_cases hf : s.frontKeyIs x = true
  · rw [exec_skp_front hf] at h
    cases h
    exact ⟨_, _, .inr rfl, by simp, rfl⟩
  · rw [exec_skp_notFront hf] at h
    cases h
    exact ⟨_, _, .inl rfl, le_rfl, rfl⟩

/-- A completed SKNP moves PC by a skip or not at all, and the queue never grows (R111). -/
theorem exec_sknp_next {x : Reg} {s t : State} (h : exec (.sknp x) s = .next t) :
    ∃ pc q, (pc = s.pc ∨ pc = s.pc + 2#16) ∧ q.length ≤ s.keyq.length ∧ t = { s with pc := pc, keyq := q } := by
  by_cases hf : s.frontKeyIs x = true
  · rw [exec_sknp_front hf] at h
    cases h
    exact ⟨_, _, .inl rfl, by split <;> simp, rfl⟩
  · rw [exec_sknp_notFront hf] at h
    cases h
    exact ⟨_, _, .inr rfl, le_rfl, rfl⟩

/-- A completed LD Vx, K changes `Vx`, the queue, which never grows, and the hold (R112). -/
theorem exec_ldVxK_next {x : Reg} {s t : State} (h : exec (.ldVxK x) s = .next t) :
    t = { s with regs := t.regs, keyq := t.keyq, waiting := t.waiting } ∧ s.SameRegsBut t [x] ∧
      t.keyq.length ≤ s.keyq.length := by
  cases hq : s.keyq
  case nil =>
    rw [exec_ldVxK_nil x hq] at h
    cases h
    exact ⟨rfl, fun _ _ => rfl, by simp [hq]⟩
  case cons k rest =>
    rw [exec_ldVxK_cons x hq] at h
    cases h
    exact ⟨rfl, (s.takeKey_spec x k rest).2.2, by simp [State.takeKey]⟩

/-! ### The statements -/

/-- Settles O33: the draw is counted, then one register is written; a masked bit is cleared by the mask's complement. -/
theorem randomIsMasked : Obligations.RandomIsMasked := by
  refine ⟨selects_rnd, fun x nn s => ⟨_, rfl, fun k _ => ?_, ?_, rfl, State.setReg_sameRegsBut s.takeFree x _⟩⟩
  · rw [State.setReg_reg_self, BitVec.getLsbD_and]
  · rw [State.setReg_reg_self, BitVec.and_assoc, BitVec.and_not_self]
    exact BitVec.and_zero

/-- Settles O35: LD F is one write of `I`. -/
theorem glyphAddressFormula : Obligations.GlyphAddressFormula :=
  ⟨selects_ldF, fun x s => ⟨s.setI (glyphAddress s.params (s.reg x)), rfl, glyphAddress_toNat _ _, s.setI_frame _⟩⟩

/-- Settles O36: the rows at that address are in the font's 80 places. -/
theorem glyphRowsAtIndex : Obligations.GlyphRowsAtIndex := by
  intro x s hdigit hfont
  refine ⟨s.setI (glyphAddress s.params (s.reg x)), rfl, fun k hk => ?_⟩
  rw [State.setI_peek, State.setI_i, glyphAddress_toNat_of_digit _ hdigit, hfont _ (by omega) (by omega),
    State.created_peek_glyph _ (by omega) hk]

/-- Settles O47: the queue decides. -/
theorem keyWaitTakesOrHolds : Obligations.KeyWaitTakesOrHolds :=
  ⟨selects_ldVxK, fun x s =>
    ⟨fun k rest hq => ⟨_, exec_ldVxK_cons x hq, s.takeKey_spec x k rest⟩, exec_ldVxK_nil x⟩⟩

/-- Settles O50: each is one write, of a register or of a timer. -/
theorem timerInstructions : Obligations.TimerInstructions :=
  ⟨selects_ldVxDt, selects_ldDtVx, selects_ldStVx, fun x s =>
    ⟨⟨s.setReg x s.dt, rfl, s.setReg_reg_self x s.dt, s.setReg_frame x s.dt⟩, rfl,
      ⟨s.setSt (s.reg x), rfl, rfl, State.soundActive_iff _⟩⟩⟩

end Sys2Proof.Machine
end

section
/-!
What a completed instruction changes (rules R13 to R25, R79, R151): each piece of state by its own writers, the registers
by their destinations, and that an instruction without `DT` commutes with a write of `DT` (R40).
-/
namespace Sys2Proof.Machine

/-! ### Each piece of state -/

/-- Settles O19: the state that each instruction leaves, read piece by piece. -/
theorem eachPieceHasItsWriters : Obligations.EachPieceHasItsWriters := by
  intro i s t h
  cases i
  case ret =>
    obtain ⟨rest, v, -, rfl⟩ := exec_ret_next h
    simp
  case call =>
    obtain ⟨-, rfl⟩ := exec_call_next h
    simp
  case drw =>
    obtain ⟨-, rfl⟩ := exec_drw_next h
    simp [State.drawSprite]
  case ldB | storeRegs =>
    obtain ⟨m, rfl⟩ : ∃ m, t = { s with mem := m } := ⟨_, (State.answer_writeBlock_next h).1⟩
    simp
  case loadRegs =>
    obtain ⟨-, rfl⟩ := exec_loadRegs_next h
    simp
  case seByte | sneByte | seReg | sneReg =>
    cases h
    simp [State.skipIf_eq]
  case addReg | sub | shr | subn | shl =>
    cases h
    rw [State.setRegFlag_eq]
    simp
  case skp =>
    obtain ⟨pc, q, -, -, rfl⟩ := exec_skp_next h
    simp
  case sknp =>
    obtain ⟨pc, q, -, -, rfl⟩ := exec_sknp_next h
    simp
  case ldVxK =>
    obtain ⟨hframe, -, -⟩ := exec_ldVxK_next h
    rw [hframe]
    simp
  all_goals
    cases h
    simp

/-- What no completed instruction changes. -/
theorem exec_keeps {i : Instr} {s t : State} (h : exec i s = .next t) :
    t.halted = s.halted ∧ t.params = s.params ∧ t.schedule = s.schedule ∧ t.outputs = s.outputs := by
  obtain ⟨-, -, -, -, -, -, -, -, -, hrest⟩ := eachPieceHasItsWriters i s t h
  exact hrest

/-! ### The registers -/

/-- The flag that a result leaves in `VF`, unless the result comes last and goes there (R80). -/
theorem State.setRegFlag_flag (s : State) (x : Reg) (v : Byte) (b : Bool)
    (h : s.params.flagOrder = .flagLast ∨ x ≠ regF) : (s.setRegFlag x v b).reg regF = flagByte b := by
  obtain ⟨⟨hne, heq⟩, -⟩ := s.setRegFlag_spec x v b
  by_cases hx : x = regF
  · rw [heq hx, h.resolve_right (not_not_intro hx)]
  · exact (hne hx).2

/-- A register that is no destination keeps its value, `VF` if the instruction writes no flag. -/
theorem exec_reg_of_not_written {i : Instr} {s t : State} (h : exec i s = .next t) {r : Reg}
    (hd : destination i r = false) (hf : r ≠ regF ∨ writesFlag i = false) : t.reg r = s.reg r := by
  cases i
  case ret =>
    obtain ⟨rest, v, -, rfl⟩ := exec_ret_next h
    rfl
  case call =>
    obtain ⟨-, rfl⟩ := exec_call_next h
    rfl
  case drw =>
    obtain ⟨-, rfl⟩ := exec_drw_next h
    have hr : r ≠ regF := hf.resolve_right (by simp [writesFlag])
    exact (s.drawSprite_frame _ _ _).2.1 r (by simpa using hr)
  case ldB | storeRegs =>
    rw [(State.answer_writeBlock_next h).1]
    rfl
  case loadRegs x =>
    obtain ⟨-, rfl⟩ := exec_loadRegs_next h
    rw [State.setRegRange_range_reg, if_neg]
    simpa [destination, Nat.lt_succ_iff] using hd
  case seByte | sneByte | seReg | sneReg =>
    cases h
    rw [State.skipIf_eq]
    rfl
  case addReg x y | sub x y | shr x y | subn x y | shl x y =>
    cases h
    have hr : r ≠ regF := hf.resolve_right (by simp [writesFlag])
    have hx : r ≠ x := ne_of_beq_false hd
    exact (s.setRegFlag_spec _ _ _).2 r (by simpa using ⟨hx, hr⟩)
  case skp =>
    obtain ⟨pc, q, -, -, rfl⟩ := exec_skp_next h
    rfl
  case sknp =>
    obtain ⟨pc, q, -, -, rfl⟩ := exec_sknp_next h
    rfl
  case ldVxK x =>
    have hx : r ≠ x := ne_of_beq_false hd
    exact (exec_ldVxK_next h).2.1 r (by simpa using hx)
  case ldByte | addByte | ldReg | orReg | andReg | xorReg | ldVxDt | rnd =>
    cases h
    exact State.setReg_reg_ne _ _ _ _ (ne_of_beq_false hd)
  all_goals
    cases h
    rfl

/-- A flag-writing instruction leaves 0 or 1 in `VF`, unless its result comes last and goes there. -/
theorem exec_flag {i : Instr} {s t : State} (h : exec i s = .next t) (hf : writesFlag i = true)
    (hlast : s.params.flagOrder = .flagLast ∨ destination i regF = false) : t.reg regF = 0#8 ∨ t.reg regF = 1#8 := by
  cases i
  case drw =>
    obtain ⟨-, rfl⟩ := exec_drw_next h
    rw [State.drawSprite_flag]
    exact flagByte_cases _
  case addReg x y | sub x y | shr x y | subn x y | shl x y =>
    cases h
    rw [State.setRegFlag_flag _ _ _ _ (hlast.imp_right fun hd => (ne_of_beq_false hd).symm)]
    exact flagByte_cases _
  all_goals cases hf

/-- Settles O18: the first two clauses are one, by cases on whether the register is `VF`. -/
theorem registerWriters : Obligations.RegisterWriters :=
  fun _ _ _ h => ⟨fun _ hr hd => exec_reg_of_not_written h hd (.inl hr),
    fun hf hd => exec_reg_of_not_written h hd (.inr hf), exec_flag h⟩

/-! ### The delay timer -/

section
variable {s t : State} (v : Byte)

theorem State.skipIf_setDt (c : Bool) : (s.setDt v).skipIf c = (s.skipIf c).setDt v := by cases c <;> rfl

theorem State.setRegFlag_setDt (x : Reg) (b : Byte) (c : Bool) :
    (s.setDt v).setRegFlag x b c = (s.setRegFlag x b c).setDt v := by
  unfold State.setRegFlag
  rw [State.setDt_params]
  cases s.params.flagOrder <;> rfl

theorem answer_map {r : Except Fault State} (f : State → State) (h : answer r = .next t) :
    answer (r.map f) = .next (f t) := by
  cases r
  case ok => cases h; rfl
  case error => cases h

/-- An instruction that does not use `DT` commutes with a write of it (R40). -/
theorem exec_setDt {i : Instr} (hread : ∀ x, i ≠ .ldVxDt x) (hwrite : ∀ x, i ≠ .ldDtVx x) (h : exec i s = .next t) :
    exec i (s.setDt v) = .next (t.setDt v) := by
  cases i
  case ldVxDt x => exact absurd rfl (hread x)
  case ldDtVx x => exact absurd rfl (hwrite x)
  case ret =>
    obtain ⟨rest, u, hu, rfl⟩ := exec_ret_next h
    exact exec_ret_snoc (s.setDt v) rest u hu
  case call =>
    obtain ⟨hroom, rfl⟩ := exec_call_next h
    exact exec_call_room _ (s.setDt v) hroom
  case drw =>
    obtain ⟨hin, rfl⟩ := exec_drw_next h
    exact exec_drw_inside _ _ _ (s.setDt v) hin
  case ldB x =>
    exact (congrArg answer (s.writeBlock_setDt v (decimalDigits (s.reg x)) s.base)).trans (answer_map _ h)
  case storeRegs x =>
    exact (congrArg answer (s.writeBlock_setDt v (s.regRange x) s.base)).trans (answer_map _ h)
  case loadRegs x =>
    obtain ⟨hin, rfl⟩ := exec_loadRegs_next h
    exact exec_loadRegs_inside x (s.setDt v) hin
  case seByte | sneByte | seReg | sneReg => cases h; exact congrArg _ (State.skipIf_setDt v _)
  case addReg | sub | shr | subn | shl => cases h; exact congrArg _ (State.setRegFlag_setDt v _ _ _)
  case skp x =>
    by_cases hf : s.frontKeyIs x = true
    · rw [exec_skp_front hf] at h; cases h; exact exec_skp_front (s := s.setDt v) hf
    · rw [exec_skp_notFront hf] at h; cases h; exact exec_skp_notFront (s := s.setDt v) hf
  case sknp x =>
    by_cases hf : s.frontKeyIs x = true
    · rw [exec_sknp_front hf] at h; cases h; exact exec_sknp_front (s := s.setDt v) hf
    · rw [exec_sknp_notFront hf] at h; cases h; exact exec_sknp_notFront (s := s.setDt v) hf
  case ldVxK x =>
    cases hq : s.keyq
    case nil => rw [exec_ldVxK_nil x hq] at h; cases h; exact exec_ldVxK_nil (s := s.setDt v) x hq
    case cons => rw [exec_ldVxK_cons x hq] at h; cases h; exact exec_ldVxK_cons (s := s.setDt v) x hq
  all_goals
    cases h
    rfl

end

/-- Settles O56: a delay tick is a write of `DT` that depends on `DT` only, which the instruction keeps. -/
theorem delayTickCommutes : Obligations.DelayTickCommutes := by
  intro i s t hread hwrite h
  obtain ⟨-, -, -, -, hdt, -⟩ := eachPieceHasItsWriters i s t h
  have hkeep : t.dt = s.dt := hdt.resolve_right fun ⟨x, hx⟩ => hwrite x hx
  rw [State.tickDelay_eq, State.tickDelay_eq, hkeep]
  exact exec_setDt _ hread hwrite h

end Sys2Proof.Machine
end


section
/-!
One step of the machine (rules R37, R41, R120 to R123): the CPU's step by what it fetches and decodes, the turns of the
other agents, the held CPU, and the statements, each assembled from these.
-/
namespace Sys2Proof.Machine

/-! ### The CPU's step by its fetch and decode (R37) -/

section
variable {s : State} (hf : s.Fetching)
include hf

theorem step_of_fetchWord_error {e : Fault} (hw : s.fetchWord = .error e) : step s = .next (s.turnTaken.halt e) := by
  have hw' : s.turnTaken.fetchWord = .error e := hw
  simp only [step_fetching s hf, State.cpuStep, hw']

theorem step_of_decodeWord_error {w : Word} {e : DecodeError} (hw : s.fetchWord = .ok w)
    (hd : decodeWord w = .error e) : step s = .next (s.handler.halt (.decodeError w)) := by
  have hw' : s.turnTaken.fetchWord = .ok w := hw
  simp only [step_fetching s hf, State.cpuStep, hw', hd, State.turnTaken_advance]

theorem step_of_decodeWord_ok {w : Word} {i : Instr} (hw : s.fetchWord = .ok w) (hd : decodeWord w = .ok i) :
    step s = s.handler.settle i (exec i s.handler) := by
  have hw' : s.turnTaken.fetchWord = .ok w := hw
  simp only [step_fetching s hf, State.cpuStep, hw', hd, State.turnTaken_advance]

/-- An instruction that completes gives the step's next state. -/
theorem step_of_exec_next {w : Word} {i : Instr} {t : State} (hw : s.fetchWord = .ok w) (hd : decodeWord w = .ok i)
    (h : exec i s.handler = .next t) : step s = .next t := by
  rw [step_of_decodeWord_ok hf hw hd, h, State.settle]

/-- An instruction that raises an error takes the fatal transition (R120). -/
theorem step_of_exec_fault {w : Word} {i : Instr} {e : Fault} (hw : s.fetchWord = .ok w) (hd : decodeWord w = .ok i)
    (h : exec i s.handler = .fault e) : step s = .next ((s.handler.leftBehind i).halt e) := by
  rw [step_of_decodeWord_ok hf hw hd, h, State.settle]

end

/-- Settles O7: the two cases of the fetch, its word by its value. -/
theorem fetchIsBigEndian : Obligations.FetchIsBigEndian :=
  fun s => ⟨fun h => ⟨_, s.fetchWord_spec.1 h, bigEndian_toNat _ _⟩, s.fetchWord_spec.2⟩

/-- Settles O8: the engine settles what the meaning answers. -/
theorem stepRunsDecodedInstruction : Obligations.StepRunsDecodedInstruction := by
  intro s i hf hpc hbytes
  have hw := s.fetchWord_spec.1 hpc
  have hd := (decodeBytes_two _ _ i).1 hbytes
  exact ⟨rfl, fun t => step_of_exec_next hf hw hd, fun e => step_of_exec_fault hf hw hd, exec_ne_refused i _⟩

/-- Settles O9: the fetch's error, with PC not advanced. -/
theorem fetchErrorHalts : Obligations.FetchErrorHalts :=
  fun s hf hpc => step_of_fetchWord_error hf (s.fetchWord_spec.2 hpc)

/-- Settles O10: the illegal words are those that the decoder refuses. -/
theorem illegalWordHalts : Obligations.IllegalWordHalts := by
  intro s w hf hpc hword hill
  obtain rfl : w = bigEndian (s.peek s.pc.toNat) (s.peek (s.pc.toNat + 1)) :=
    BitVec.eq_of_toNat_eq (hword.trans (bigEndian_toNat _ _).symm)
  exact step_of_decodeWord_error hf (s.fetchWord_spec.1 hpc) ((decodeWord_error_iff _).2 hill)

/-- Settles O11: a stack error leaves nothing behind but the fatal transition. -/
theorem stackErrorsHalt : Obligations.StackErrorsHalt := by
  intro s i c hf hpc hd hcase
  have hw := s.fetchWord_spec.1 hpc
  rcases hcase with ⟨rfl, hstack, rfl⟩ | ⟨nnn, rfl, hdepth, rfl⟩
  · exact step_of_exec_fault hf hw hd (exec_ret_nil s.handler hstack)
  · exact step_of_exec_fault hf hw hd (exec_call_full nnn s.handler hdepth)

/-! ### The other agents (R126 to R133) -/

/-- A sound tick changes `ST` and the outputs only. -/
theorem State.tickSound_frame (s : State) : ∃ v o, s.tickSound = { s with st := v, outputs := o } := by
  rcases Nat.lt_trichotomy s.st.toNat 1 with h | h | h
  · exact ⟨_, _, s.tickSound_zero (Nat.lt_one_iff.1 h)⟩
  · exact ⟨_, _, s.tickSound_one h⟩
  · obtain ⟨v, -, hv⟩ := s.tickSound_more h
    exact ⟨v, _, hv⟩

/-- A push changes the queue only, and keeps it within its depth. -/
theorem State.keyPush_frame (s : State) (k : Key) :
    ∃ q, s.keyPush k = { s with keyq := q } ∧
      ∀ d, s.params.keyqDepth = some d → s.keyq.length ≤ d → q.length ≤ d := by
  by_cases h : s.keyRoom = true
  · refine ⟨_, s.keyPush_room k h, fun d hd _ => ?_⟩
    rw [List.length_append]
    exact s.keyRoom_iff.1 h d hd
  · exact ⟨_, s.keyPush_full k h, fun _ _ hlen => hlen⟩

/-- A turn of another agent changes the timers, the queue and the outputs only, and keeps the queue within its depth. -/
theorem State.agentTurn_frame (s : State) (a : Turn) :
    ∃ d v q o, s.agentTurn a = { s with dt := d, st := v, keyq := q, outputs := o } ∧
      ∀ n, s.params.keyqDepth = some n → s.keyq.length ≤ n → q.length ≤ n := by
  cases a with
  | cpu => exact ⟨_, _, _, _, rfl, fun _ _ hlen => hlen⟩
  | tickDelay => exact ⟨_, _, _, _, s.tickDelay_eq, fun _ _ hlen => hlen⟩
  | tickSound =>
    obtain ⟨v, o, h⟩ := s.tickSound_frame
    exact ⟨_, v, _, o, h, fun _ _ hlen => hlen⟩
  | keyPush k =>
    obtain ⟨q, h, hlen⟩ := s.keyPush_frame k
    exact ⟨_, _, q, _, h, hlen⟩
  | sample => exact ⟨_, _, _, _, rfl, fun _ _ hlen => hlen⟩

/-- Settles O51: a delay tick writes the decremented value, which fits in a byte. -/
theorem delayTickCountsDown : Obligations.DelayTickCountsDown := by
  intro s rest hs
  refine ⟨_, step_agent s _ rest hs nofun, ?_, ?_⟩
  · rw [State.agentTurn, State.tickDelay_eq, State.setDt_dt, State.setSchedule_dt]
    exact byte_ofNat_toNat (Nat.sub_le _ 1)
  · rw [State.agentTurn, State.tickDelay_eq]
    rfl

/-- Settles O52: the timer at 0, at 1 and above. -/
theorem soundTickCountsDown : Obligations.SoundTickCountsDown := by
  intro s rest hs
  refine ⟨_, step_agent s _ rest hs nofun, ?_⟩
  rw [State.agentTurn, State.soundActive_iff]
  rcases Nat.lt_trichotomy s.st.toNat 1 with h | h | h
  · rw [State.tickSound_zero (s.setSchedule rest) (Nat.lt_one_iff.1 h), if_neg h.ne, State.setSchedule_st]
    exact ⟨by omega, rfl, rfl, by omega⟩
  · rw [State.tickSound_one (s.setSchedule rest) h, if_pos h, h]
    exact ⟨rfl, rfl, rfl, by simp⟩
  · obtain ⟨v, hv, htick⟩ := State.tickSound_more (s.setSchedule rest) h
    rw [State.setSchedule_st] at hv
    rw [htick, if_neg h.ne', State.setSt_st, hv]
    exact ⟨rfl, rfl, rfl, by omega⟩

/-- Settles O53: a push with room and without. -/
theorem keyPushAppends : Obligations.KeyPushAppends := by
  refine fun s k rest hs => ⟨fun hroom => ?_, fun ⟨d, hd, hfull⟩ => ?_⟩
  · have hyes : (s.setSchedule rest).keyRoom = true := (State.keyRoom_iff _).2 hroom
    rw [step_agent s _ rest hs nofun, State.agentTurn, State.keyPush_room _ k hyes]
    rfl
  · have hno : ¬ (s.setSchedule rest).keyRoom = true := fun h =>
      absurd ((State.keyRoom_iff _).1 h d hd) (Nat.not_lt.2 hfull)
    rw [step_agent s _ rest hs nofun, State.agentTurn, State.keyPush_full _ k hno]
    rfl

/-- Settles O54: a sample is one output. -/
theorem sampleIsWholeGrid : Obligations.SampleIsWholeGrid :=
  fun s rest hs => step_agent s _ rest hs nofun

/-- Settles O55: an agent's turn changes the timers, the queue and the outputs only. -/
theorem agentsLeaveCpuState : Obligations.AgentsLeaveCpuState := by
  intro s a rest hs ha
  obtain ⟨d, v, q, o, hframe, -⟩ := (s.setSchedule rest).agentTurn_frame a
  rw [step_agent s a rest hs ha, hframe]
  exact ⟨_, rfl, rfl, rfl, rfl, rfl, rfl, rfl, rfl, rfl, rfl, rfl⟩

/-! ### The held CPU (R25, R112) -/

/-- A held, running CPU's turn is a turn of its key wait. -/
theorem step_held {s : State} {x : Reg} (hturn : s.CpuNext) (hrun : s.halted = .running) (hheld : s.waiting = some x) :
    step s = .next (s.turnTaken.keyWaitTurn x) := by
  have hrun' : s.turnTaken.halted = .running := hrun
  have hheld' : s.turnTaken.waiting = some x := hheld
  simp only [step_cpu s hturn, State.cpuTurn, hrun', hheld']

/-- Settles O48: the queue decides. -/
theorem heldCpuWaitsForKey : Obligations.HeldCpuWaitsForKey := by
  intro s x hturn hrun hheld
  rw [step_held hturn hrun hheld]
  refine ⟨fun hq => ?_, fun k rest hq => ?_⟩
  · rw [State.keyWaitTurn_nil x (s := s.turnTaken) hq]
    rfl
  · rw [State.keyWaitTurn_cons x (s := s.turnTaken) hq]
    exact ⟨_, rfl, s.turnTaken.takeKey_spec x k rest⟩

/-- Settles O49: the wait holds the CPU, the push finds room, and the held CPU takes the one key there. -/
theorem keyWaitReturnsPushedKey : Obligations.KeyWaitReturnsPushedKey := by
  intro x k s t rest hq hrun hroom hs h
  obtain rfl : { s with waiting := some x } = t := Host.Outcome.next.inj ((exec_ldVxK_nil x hq).symm.trans h)
  have hpush := (keyPushAppends { s with waiting := some x } k (.cpu :: rest) hs).1 fun d hd => by
    rw [hq]
    exact Nat.pos_of_ne_zero fun h0 => hroom (h0 ▸ hd)
  obtain ⟨v, hv, hkey, hframe, -⟩ := (heldCpuWaitsForKey
    { s with waiting := some x, keyq := s.keyq ++ [k], schedule := .cpu :: rest } x (.inr rfl) hrun rfl).2 k []
    (congrArg (· ++ [k]) hq)
  refine ⟨_, v, hpush, hv, hkey, ?_⟩
  rw [hframe]
  exact ⟨rfl, rfl, rfl, rfl⟩

/-! ### What a step can do -/

/-- A step that gives a next state is another agent's turn, a held CPU's, or a running CPU's step. -/
theorem step_next_cases {s t : State} (h : step s = .next t) :
    (∃ d v q o l, t = { s with dt := d, st := v, keyq := q, outputs := o, schedule := l } ∧
      ∀ n, s.params.keyqDepth = some n → s.keyq.length ≤ n → q.length ≤ n) ∨
    (s.halted = .running ∧
      ((∃ x, t = s.turnTaken.keyWaitTurn x) ∨ (s.waiting = none ∧ s.turnTaken.cpuStep = .next t))) := by
  rcases step_cases s with ⟨-, hstep⟩ | ⟨a, rest, -, -, hstep⟩
  · rw [hstep] at h
    rcases s.turnTaken.cpuTurn_cases with ⟨e, -, hturn⟩ | ⟨x, hrun, -, hturn⟩ | ⟨hrun, hfree, hturn⟩
    · rw [hturn] at h
      cases h
    · rw [hturn] at h
      cases h
      exact .inr ⟨hrun, .inl ⟨x, rfl⟩⟩
    · exact .inr ⟨hrun, .inr ⟨hfree, hturn ▸ h⟩⟩
  · obtain ⟨d, v, q, o, hframe, hlen⟩ := (s.setSchedule rest).agentTurn_frame a
    rw [hstep, hframe] at h
    cases h
    exact .inl ⟨d, v, q, o, rest, rfl, hlen⟩

/-- A CPU step completes an instruction or ends in the fatal transition: of the fetch, of the decoder, or of an
instruction. -/
theorem State.cpuStep_next_cases {s t : State} (h : s.cpuStep = .next t) :
    (∃ e, t = s.halt e) ∨
    (s.pc.toNat ≤ 0xFFE ∧
      ((∃ e, t = s.advance.halt e) ∨ (∃ i, exec i s.advance = .next t) ∨
        ∃ i e, t = (s.advance.leftBehind i).halt e)) := by
  rcases s.cpuStep_cases with ⟨-, hstep⟩ | ⟨hpc, w, -, ⟨e, -, hstep⟩ | ⟨i, -, hstep⟩⟩
  · rw [hstep] at h
    cases h
    exact .inl ⟨_, rfl⟩
  · rw [hstep] at h
    cases h
    exact .inr ⟨hpc, .inl ⟨_, rfl⟩⟩
  · rw [hstep] at h
    refine .inr ⟨hpc, .inr ?_⟩
    rcases exec_cases i s.advance with ⟨-, u, hu⟩ | ⟨e, -, he⟩
    · rw [hu] at h
      cases h
      exact .inl ⟨i, hu⟩
    · rw [he] at h
      cases h
      exact .inr ⟨i, e, rfl⟩

/-- A turn of a key wait changes the registers, the queue, which never grows, and the hold. -/
theorem State.keyWaitTurn_frame (s : State) (x : Reg) :
    ∃ r q w, s.keyWaitTurn x = { s with regs := r, keyq := q, waiting := w } ∧ q.length ≤ s.keyq.length := by
  cases hq : s.keyq
  case nil => exact ⟨s.regs, s.keyq, s.waiting, s.keyWaitTurn_nil x hq, by rw [hq]⟩
  case cons k rest => exact ⟨_, _, _, s.keyWaitTurn_cons x hq, Nat.le_succ _⟩

theorem State.leftBehind_params (s : State) (i : Instr) : (s.leftBehind i).params = s.params := by
  rw [s.leftBehind_frame i]

/-- Settles O17: no instruction writes the parameters, nor does what surrounds it in a step. -/
theorem parametersKept : Obligations.ParametersKept := by
  intro s t h
  rcases step_next_cases h with ⟨d, v, q, o, l, rfl, -⟩ | ⟨-, ⟨x, rfl⟩ | ⟨-, hcpu⟩⟩
  · rfl
  · obtain ⟨r, q, w, hframe, -⟩ := s.turnTaken.keyWaitTurn_frame x
    rw [hframe]
    rfl
  · rcases State.cpuStep_next_cases hcpu with ⟨e, rfl⟩ | ⟨-, ⟨e, rfl⟩ | ⟨i, hi⟩ | ⟨i, e, rfl⟩⟩
    · rfl
    · rfl
    · exact (exec_keeps hi).2.1
    · exact s.turnTaken.advance.leftBehind_params i

/-- Settles O13: the CPU's turn of a halted engine is its fault, so a next state is another agent's. -/
theorem haltedIsTerminal : Obligations.HaltedIsTerminal := by
  intro s e he
  refine ⟨fun hturn => ?_, fun t h => ?_⟩
  · have he' : s.turnTaken.halted = .halted e := he
    simp only [step_cpu s hturn, State.cpuTurn, he']
  · rcases step_next_cases h with ⟨d, v, q, o, l, rfl, -⟩ | ⟨hrun, -⟩
    · exact ⟨rfl, rfl, rfl, rfl, rfl, rfl, rfl, rfl⟩
    · rw [he] at hrun
      cases hrun

end Sys2Proof.Machine
end


section
/-!
What a memory bounds error leaves behind (rules R99, R122(d)): each of the four memory instructions, whatever its free
values are, and the statement.
-/
namespace Sys2Proof.Machine

/-! ### The four instructions that can raise one -/

/-- A byte of memory after an interrupted block store of `bs` from `I` on. -/
theorem State.partialStore_peek (done : Nat → Bool) (bs : List Byte) (s : State) (a : Nat) :
    (s.partialStore done bs).peek a = s.peek a ∨
      (s.i.toNat ≤ a ∧ a ≤ 0xFFF ∧ a < s.i.toNat + bs.length ∧
        (s.partialStore done bs).peek a = bs.getD (a - s.i.toNat) 0#8) :=
  (Memory.storeSome_spec done s.params bs 0 s.base s.mem).1 a

/-- A byte of memory after an interrupted LD [I], Vx is as before, or one of `V0..VX`. -/
theorem State.partialStore_regRange_peek (done : Nat → Bool) (x : Reg) (s : State) (a : Nat) :
    (s.partialStore done (s.regRange x)).peek a = s.peek a ∨
      ∃ r : Reg, r.toNat ≤ x.toNat ∧ a = s.i.toNat + r.toNat ∧ a ≤ 0xFFF ∧
        (s.partialStore done (s.regRange x)).peek a = s.reg r := by
  refine (s.partialStore_peek done (s.regRange x) a).imp_right fun ⟨hge, hle, hlt, hpeek⟩ => ?_
  rw [State.regRange_length] at hlt
  have hx := x.isLt
  obtain ⟨r, hr⟩ : ∃ r : Reg, r.toNat = a - s.i.toNat :=
    ⟨BitVec.ofNat 4 (a - s.i.toNat), (BitVec.toNat_ofNat ..).trans (Nat.mod_eq_of_lt (by omega))⟩
  rw [← hr, s.regRange_getD x r (by omega)] at hpeek
  exact ⟨r, by omega, by omega, hle, hpeek⟩

/-- A register after an interrupted LD Vx, [I] is as before, or its byte of memory. -/
theorem State.partialLoad_reg (done : Nat → Bool) (x : Reg) (s : State) (r : Reg) :
    (s.partialLoad done x).reg r = s.reg r ∨
      (r.toNat ≤ x.toNat ∧ s.i.toNat + r.toNat ≤ 0xFFF ∧
        (s.partialLoad done x).reg r = s.peek (s.i.toNat + r.toNat)) := by
  obtain ⟨hlen, hbytes⟩ := s.readableBytes_spec (x.toNat + 1) s.base
  refine (loadSome_getElem done (s.readableBytes s.base (x.toNat + 1)) 0 s.regs r.toNat r.isLt).imp_right
    fun ⟨_, hlt, hreg⟩ => ?_
  obtain ⟨hin, hbyte⟩ := hbytes r.toNat (by omega)
  exact ⟨by omega, hin, hreg.trans hbyte⟩

/-- The registers after an interrupted DRW: `VF` as before, 0 or 1, and the others as before. -/
theorem State.partialDraw_reg (done : Nat → Bool) (x y : Reg) (n : Nibble) (s : State) :
    s.SameRegsBut (s.partialDraw done x y n) [regF] ∧
    ((s.partialDraw done x y n).reg regF = s.reg regF ∨ (s.partialDraw done x y n).reg regF = 0#8 ∨
      (s.partialDraw done x y n).reg regF = 1#8) := by
  refine ⟨fun r hr => (flagSome_getElem done s.regs r.toNat r.isLt).resolve_right fun ⟨h15, _⟩ => ?_,
    (flagSome_getElem done s.regs regF.toNat regF.isLt).imp_right fun ⟨_, h⟩ => h⟩
  exact hr (List.mem_singleton.2 (BitVec.eq_of_toNat_eq h15))

/-- A pixel after an interrupted DRW is as before, or under a set bit of a row that lies in memory. -/
theorem State.partialDraw_pixel (done : Nat → Bool) (x y : Reg) (n : Nibble) (s : State) (px py : Nat) (hx : px < 64)
    (hy : py < 32) :
    Framebuffer.pixel (s.partialDraw done x y n).fb px py = Framebuffer.pixel s.fb px py ∨
      ∃ r, r < n.toNat ∧ s.i.toNat + r ≤ 0xFFF ∧
        covers [s.peek (s.i.toNat + r)] (s.reg x).toNat ((s.reg y).toNat + r) px py := by
  obtain ⟨hlen, hbytes⟩ := s.readableBytes_spec n.toNat s.base
  by_cases hc : rowsCover (s.readableBytes s.base n.toNat) (s.reg x).toNat (s.reg y).toNat px py
  · obtain ⟨r, hr, hrow⟩ := hc
    obtain ⟨hin, hbyte⟩ := hbytes r hr
    rw [hbyte] at hrow
    exact .inr ⟨r, by omega, hin, (covers_iff _ _ _ px py hx hy).2 ⟨0, Nat.one_pos, hrow⟩⟩
  · exact .inl (drawSomeRows_pixel done _ 0 _ _ s.fb px py hc)

/-! ### The statement -/

/-- Settles O12: the fatal transition on what the instruction leaves behind, piece by piece. -/
theorem memoryErrorsHalt : Obligations.MemoryErrorsHalt := by
  intro s i e hf hpc hd hr hret hcall
  have hstep := step_of_exec_fault hf (s.fetchWord_spec.1 hpc) hd ((exec_fault_iff i s.handler e).2 hr)
  have hframe := s.handler.leftBehind_frame i
  refine ⟨_, hstep, rfl, ?_, ?_, ?_, ?_, ?_, ?_, ?_, ?_, ?_, ?_, ?transferred⟩
  case transferred =>
    cases i
    case ret => exact hret rfl
    case call nnn => exact hcall nnn rfl
    case drw x y n =>
      obtain ⟨hregs, hflag⟩ := s.handler.partialDraw_reg (Config.partialDone s.freeCount) x y n
      exact ⟨fun _ => rfl, hregs, hflag, s.handler.partialDraw_pixel _ x y n⟩
    case ldB x => exact ⟨rfl, rfl, s.handler.partialStore_peek _ (decimalDigits (s.reg x))⟩
    case storeRegs x =>
      exact ⟨rfl, rfl, s.handler.partialStore_regRange_peek _ x⟩
    case loadRegs x =>
      exact ⟨fun _ => rfl, rfl, s.handler.partialLoad_reg _ x⟩
    all_goals cases hr
  all_goals rw [hframe]; rfl

end Sys2Proof.Machine
end

section
/-!
The invariant (rules R17, R18, R23, R25 to R27, R38): that a completed instruction keeps each of its parts, that every
step keeps it, and that the reset state meets it.
-/
namespace Sys2Proof.Machine

/-! ### PC and the return addresses (R17, R64) -/

theorem add_two_toNat {v : Word} (h : v.toNat ≤ 0x1000) : (v + 2#16).toNat = v.toNat + 2 := by
  rw [BitVec.toNat_add]
  exact Nat.mod_eq_of_lt (by simp; omega)

theorem addrOperand_le (nnn : Addr) : (addrOperand nnn).toNat ≤ 0xFFF :=
  (addrOperand_toNat nnn).trans_le (Nat.le_of_lt_succ nnn.isLt)

/-! ### A completed instruction -/

section
variable {i : Instr} {s t : State} (h : exec i s = .next t)
include h

/-- From a handler's PC and bounded return addresses, no instruction takes PC above the highest sum of JP V0. -/
theorem exec_pc_le (hpc : s.pc.toNat ≤ 0x1000) (hret : ∀ a ∈ s.stack, a.toNat ≤ 0x1000) : t.pc.toNat ≤ 0x10FE := by
  have hadv := add_two_toNat hpc
  have hskip : ∀ c : Bool, (s.skipIf c).pc.toNat ≤ 0x10FE := fun c => by
    rw [State.skipIf_eq]
    dsimp only
    split <;> omega
  obtain ⟨-, -, -, -, -, -, -, -, hpcs, -⟩ := eachPieceHasItsWriters i s t h
  rcases hpcs with hsame | rfl | ⟨nnn, rfl | rfl | rfl⟩ | ⟨x, nn, rfl | rfl⟩ | ⟨x, y, rfl | rfl⟩ | ⟨x, rfl | rfl⟩
  · rw [hsame]
    omega
  · obtain ⟨rest, v, hv, rfl⟩ := exec_ret_next h
    have hle := hret v (by rw [hv]; simp)
    exact hle.trans (by decide)
  · cases h
    exact (addrOperand_le nnn).trans (by decide)
  · obtain ⟨-, rfl⟩ := exec_call_next h
    exact (addrOperand_le nnn).trans (by decide)
  · cases h
    have hn := nnn.isLt
    have hv := (s.reg 0x0#4).isLt
    rw [State.setPc_pc, addrOperand_add_regWord_toNat]
    omega
  · cases h
    exact hskip _
  · cases h
    exact hskip _
  · cases h
    exact hskip _
  · cases h
    exact hskip _
  · obtain ⟨pc, q, rfl | rfl, -, rfl⟩ := exec_skp_next h
    · exact hpc.trans (by decide)
    · exact hadv.trans_le (by omega)
  · obtain ⟨pc, q, rfl | rfl, -, rfl⟩ := exec_sknp_next h
    · exact hpc.trans (by decide)
    · exact hadv.trans_le (by omega)

theorem exec_returns_le (hpc : s.pc.toNat ≤ 0x1000) (hret : ∀ a ∈ s.stack, a.toNat ≤ 0x1000) :
    ∀ a ∈ t.stack, a.toNat ≤ 0x1000 := by
  obtain ⟨-, hstack, -⟩ := eachPieceHasItsWriters i s t h
  rcases hstack with hsame | rfl | ⟨nnn, rfl⟩
  · rw [hsame]
    exact hret
  · obtain ⟨rest, v, hv, rfl⟩ := exec_ret_next h
    exact fun a ha => hret a (by rw [hv]; exact List.mem_append_left _ ha)
  · obtain ⟨-, rfl⟩ := exec_call_next h
    intro a ha
    rcases List.mem_append.1 ha with hold | hnew
    · exact hret a hold
    · rw [List.mem_singleton.1 hnew]
      exact hpc

/-- A CALL finds room, so the stack stays within its depth (R18, R68). -/
theorem exec_stack_length_le {d : Nat} (hd : s.params.stackDepth = some d) (hlen : s.stack.length ≤ d) :
    t.stack.length ≤ d := by
  obtain ⟨-, hstack, -⟩ := eachPieceHasItsWriters i s t h
  rcases hstack with hsame | rfl | ⟨nnn, rfl⟩
  · rw [hsame]
    exact hlen
  · obtain ⟨rest, v, hv, rfl⟩ := exec_ret_next h
    rw [hv, List.length_append] at hlen
    exact (Nat.le_add_right _ _).trans hlen
  · obtain ⟨hroom, rfl⟩ := exec_call_next h
    have hne : d ≠ s.stack.length := fun heq => hroom (hd.trans (congrArg some heq))
    rw [State.setPc_stack, State.push_stack, List.length_append, List.length_singleton]
    omega

/-- No instruction lengthens the queue (R110 to R112). -/
theorem exec_keyq_length_le : t.keyq.length ≤ s.keyq.length := by
  obtain ⟨-, -, -, -, -, -, hq, -⟩ := eachPieceHasItsWriters i s t h
  rcases hq with hsame | ⟨x, rfl⟩ | ⟨x, rfl⟩ | ⟨x, rfl⟩
  · rw [hsame]
  · obtain ⟨pc, q, -, hlen, rfl⟩ := exec_skp_next h
    exact hlen
  · obtain ⟨pc, q, -, hlen, rfl⟩ := exec_sknp_next h
    exact hlen
  · exact (exec_ldVxK_next h).2.2

theorem exec_mem_wf (hmem : Memory.wf s.params s.mem = true) : Memory.wf t.params t.mem = true := by
  obtain ⟨-, -, -, hmemory, -⟩ := eachPieceHasItsWriters i s t h
  rcases hmemory with hsame | ⟨x, rfl⟩ | ⟨x, rfl⟩
  · rw [hsame, (exec_keeps h).2.1]
    exact hmem
  · exact (State.answer_writeBlock_next h).2 hmem
  · exact (State.answer_writeBlock_next h).2 hmem

/-- A running CPU's completed instruction, with PC as its handler finds it, keeps the invariant. -/
theorem exec_keeps_inv (hinv : s.Inv) (hpc : s.pc.toNat ≤ 0x1000) (hrun : s.halted = .running) : t.Inv := by
  obtain ⟨hfont, hmem, -, hret, hstack, hqueue, -⟩ := hinv
  obtain ⟨hhalted, hparams, -, -⟩ := exec_keeps h
  refine ⟨hparams ▸ hfont, exec_mem_wf h hmem, exec_pc_le h hpc hret, exec_returns_le h hpc hret, ?_, ?_,
    .inl (hhalted.trans hrun)⟩
  · exact fun d hd => exec_stack_length_le h (hparams ▸ hd) (hstack d (hparams ▸ hd))
  · exact fun d hd => (exec_keyq_length_le h).trans (hqueue d (hparams ▸ hd))

end

/-! ### The step -/

/-- The fatal transition of a CPU that is not held keeps the invariant. -/
theorem State.Inv.halt {s : State} (hinv : s.Inv) (hfree : s.waiting = none) (e : Fault) : (s.halt e).Inv := by
  obtain ⟨hfont, hmem, hpc, hret, hstack, hqueue, -⟩ := hinv
  exact ⟨hfont, hmem, hpc, hret, hstack, hqueue, .inr hfree⟩

/-- PC advanced from a fetched word keeps the invariant. -/
theorem State.Inv.advance {s : State} (hinv : s.Inv) (hpc : s.pc.toNat ≤ 0xFFE) : s.advance.Inv := by
  obtain ⟨hfont, hmem, -, hret, hstack, hqueue, hhold⟩ := hinv
  refine ⟨hfont, hmem, ?_, hret, hstack, hqueue, hhold⟩
  rw [State.advance_pc, add_two_toNat (by omega)]
  omega

/-- What an instruction that raised an error leaves behind keeps the invariant. -/
theorem State.Inv.leftBehind {s : State} (hinv : s.Inv) (i : Instr) : (s.leftBehind i).Inv := by
  obtain ⟨hfont, hmem, hpc, hret, hstack, hqueue, hhold⟩ := hinv
  have hwf := s.leftBehind_wf i hmem
  rw [s.leftBehind_frame i] at hwf ⊢
  exact ⟨hfont, hwf, hpc, hret, hstack, hqueue, hhold⟩

theorem State.Inv.keyWaitTurn {s : State} (hinv : s.Inv) (x : Reg) (hrun : s.halted = .running) :
    (s.keyWaitTurn x).Inv := by
  obtain ⟨hfont, hmem, hpc, hret, hstack, hqueue, -⟩ := hinv
  obtain ⟨r, q, w, hframe, hlen⟩ := s.keyWaitTurn_frame x
  rw [hframe]
  exact ⟨hfont, hmem, hpc, hret, hstack, fun d hd => hlen.trans (hqueue d hd), .inl hrun⟩

/-- A CPU step of a running CPU that is not held keeps the invariant. -/
theorem State.Inv.cpuStep {s t : State} (hinv : s.Inv) (hrun : s.halted = .running) (hfree : s.waiting = none)
    (h : s.cpuStep = .next t) : t.Inv := by
  rcases State.cpuStep_next_cases h with ⟨e, rfl⟩ | ⟨hpc, ⟨e, rfl⟩ | ⟨i, hi⟩ | ⟨i, e, rfl⟩⟩
  · exact hinv.halt hfree e
  · exact (hinv.advance hpc).halt hfree e
  · have hle : s.advance.pc.toNat ≤ 0x1000 := by
      rw [State.advance_pc, add_two_toNat (by omega)]
      omega
    exact exec_keeps_inv hi (hinv.advance hpc) hle hrun
  · refine ((hinv.advance hpc).leftBehind i).halt ?_ e
    rw [s.advance.leftBehind_frame i]
    exact hfree

/-- Settles O15: the invariant does not speak of whose turn it is; another agent's turn keeps the queue within its depth,
and the CPU's turn is by cases. -/
theorem invariantKept : Obligations.InvariantKept := by
  intro s t hinv h
  rcases step_next_cases h with ⟨d, v, q, o, l, rfl, hlen⟩ | ⟨hrun, ⟨x, rfl⟩ | ⟨hfree, hcpu⟩⟩
  · obtain ⟨hfont, hmem, hpc, hret, hstack, hqueue, hhold⟩ := hinv
    exact ⟨hfont, hmem, hpc, hret, hstack, fun n hn => hlen n hn (hqueue n hn), hhold⟩
  · exact State.Inv.keyWaitTurn (s := s.turnTaken) hinv x hrun
  · exact State.Inv.cpuStep (s := s.turnTaken) hinv hrun hfree hcpu

/-- Settles O16: everything listed is empty at reset, and PC is 0x200. -/
theorem resetMeetsInvariant : Obligations.ResetMeetsInvariant :=
  ⟨by decide, reset_mem_wf, by decide, nofun, by decide, by decide, .inl rfl⟩

end Sys2Proof.Machine
end


section
/-!
Boot (70_reset_and_hazards.md section 1, rules R143 to R147): creation, load and run start, and the first word fetched.
-/
namespace Sys2Proof.Machine

/-- The run starts after a successful load (R139, R147). -/
theorem boot_of_load_next {p : Params} {image : List Byte} {t : State} (h : (State.created p).load image = .next t) :
    boot p image = .next t.runStart := by
  rw [boot, h]

/-- Settles O59: the load writes memory only and run start PC only, so that the fetch reads the image's first bytes. -/
theorem bootRunsImage : Obligations.BootRunsImage := by
  refine ⟨fun p image hfits => ?_, rfl⟩
  obtain ⟨t, hload, hframe, hcopied, -⟩ := (loadCopiesImage image (State.created p)).2 hfits
  have hstart : t.runStart = { State.created p with mem := t.mem, pc := 0x200#16 } := by
    rw [hframe]
    rfl
  refine ⟨t.runStart, boot_of_load_next hload, hstart, fun hlen => ?_⟩
  have hfirst : t.runStart.peek 0x200 = image.getD 0 0#8 := hcopied 0 (by omega)
  have hsecond : t.runStart.peek (0x200 + 1) = image.getD 1 0#8 := hcopied 1 (by omega)
  have hpc : t.runStart.pc.toNat ≤ 0xFFE := by
    change (0x200#16).toNat ≤ 0xFFE
    decide
  refine ⟨_, t.runStart.fetchWord_spec.1 hpc, ?_⟩
  rw [bigEndian_toNat, ← hfirst, ← hsecond]
  rfl

end Sys2Proof.Machine
end

section
/-!
The end of a run (70_reset_and_hazards.md section 4, rules R120 and R155): what a step does in an end state, that runs
stay there, and that a run that halts has no end state.
-/
namespace Sys2Proof.Machine

/-! ### One step in an end state -/

/-- A halted engine is in no end state (R120). -/
theorem State.not_atEnd_of_halted {s : State} {e : Fault} (h : s.halted = .halted e) : ¬ s.AtEnd :=
  fun ⟨hrun, _⟩ => nomatch h.symm.trans hrun

/-- A held CPU is in no end state (R112, R155). -/
theorem State.not_atEnd_of_held {s : State} {x : Reg} (h : s.waiting = some x) : ¬ s.AtEnd :=
  fun ⟨_, hfree, _⟩ => nomatch h.symm.trans hfree

/-- The jump to its own address only takes the turn. -/
theorem State.AtEnd.step_cpu {s : State} (hend : s.AtEnd) (hturn : s.CpuNext) : step s = .next s.turnTaken := by
  obtain ⟨hrun, hfree, hpc, nnn, hself, hbytes⟩ := hend
  have hjump : s.handler.setPc (addrOperand nnn) = s.turnTaken := by
    rw [show addrOperand nnn = s.pc from BitVec.eq_of_toNat_eq ((addrOperand_toNat nnn).trans hself)]
    rfl
  rw [step_of_exec_next ⟨hturn, hrun, hfree⟩ (s.fetchWord_spec.1 hpc) ((decodeBytes_two _ _ _).1 hbytes) rfl, hjump]

/-- Whatever turn comes, a step in an end state changes the timers, the queue, the outputs and the turns only. -/
theorem State.AtEnd.step_frame {s : State} (hend : s.AtEnd) :
    ∃ d v q o l, step s = .next { s with dt := d, st := v, keyq := q, outputs := o, schedule := l } := by
  rcases step_cases s with ⟨hturn, -⟩ | ⟨a, rest, -, -, hstep⟩
  · exact ⟨_, _, _, _, _, hend.step_cpu hturn⟩
  · obtain ⟨d, v, q, o, hframe, -⟩ := (s.setSchedule rest).agentTurn_frame a
    exact ⟨d, v, q, o, rest, hstep.trans (congrArg _ hframe)⟩

/-! ### Runs -/

/-- A run from an end state goes on in end states, by induction on its steps. -/
theorem State.AtEnd.after_frame {s : State} (hend : s.AtEnd) (n : Nat) :
    ∃ d v q o l, State.after n s = some { s with dt := d, st := v, keyq := q, outputs := o, schedule := l } := by
  induction n generalizing s with
  | zero => exact ⟨_, _, _, _, _, rfl⟩
  | succ n ih =>
    obtain ⟨d, v, q, o, l, hstep⟩ := hend.step_frame
    rw [State.after_succ n hstep]
    exact ih hend

/-- A halted engine is halted after every run (R123). -/
theorem State.after_halted {s t : State} {e : Fault} {n : Nat} (hs : s.halted = .halted e)
    (h : State.after n s = some t) : t.halted = .halted e :=
  State.after_keeps (·.halted = .halted e)
    (fun u v hu hstep => ((haltedIsTerminal u e hu).2 v hstep).1.trans hu) hs h

/-- A run first comes to an end state after one number of steps only. -/
theorem State.EndsAfter.le {s t u : State} {n m : Nat} (ht : s.EndsAfter n t) (hu : s.EndsAfter m u) : m ≤ n := by
  obtain ⟨hn, hend, -⟩ := ht
  obtain ⟨-, -, hfirst⟩ := hu
  exact Nat.not_lt.1 fun hlt => hfirst n t hlt hn hend

/-- A run that comes to a halted state is in no end state: before, it would have stayed in end states, and after, the
engine is still halted. -/
theorem State.not_atEnd_of_run_halts {s t u : State} {n m : Nat} {e : Fault} (hn : State.after n s = some t)
    (ht : t.halted = .halted e) (hm : State.after m s = some u) : ¬ u.AtEnd := by
  rcases Nat.le_total m n with hle | hle
  · obtain ⟨k, rfl⟩ := Nat.exists_eq_add_of_le hle
    intro hend
    obtain ⟨d, v, q, o, l, hafter⟩ := hend.after_frame k
    rw [State.after_add k hm, hafter] at hn
    cases hn
    exact State.not_atEnd_of_halted ht hend
  · obtain ⟨k, rfl⟩ := Nat.exists_eq_add_of_le hle
    rw [State.after_add k hn] at hm
    exact State.not_atEnd_of_halted (State.after_halted ht hm)

/-- Settles O60: an end state is left by no turn, since none changes what it speaks of. -/
theorem endStateStays : Obligations.EndStateStays := by
  refine ⟨?_, fun s hend => ⟨hend.step_cpu, fun n => ?_⟩, fun s t u n m ht hu => ?_, fun s t n e hn ht m u hm => ?_⟩
  · rintro s (⟨e, he⟩ | ⟨x, hx⟩)
    · exact State.not_atEnd_of_halted he
    · exact State.not_atEnd_of_held hx
  · obtain ⟨d, v, q, o, l, hafter⟩ := hend.after_frame n
    exact ⟨_, hafter, hend, rfl, rfl, rfl, rfl, rfl, rfl, rfl⟩
  · obtain rfl : n = m := Nat.le_antisymm (hu.le ht) (ht.le hu)
    obtain ⟨hn, -, -⟩ := ht
    obtain ⟨hm, -, -⟩ := hu
    exact ⟨rfl, Option.some.inj (hn.symm.trans hm)⟩
  · exact State.not_atEnd_of_run_halts hn ht hm

end Sys2Proof.Machine
end
